-- ==== Sys2Proof/Word.lean ====
section
/-! DEFINITION. The three value types of the codec unit (10_state.md R17, 20_memory.md R36, 42_encoder.md R82). -/

namespace Sys2Proof

/-- A unit register, an address or a command word: 32 bits (00_scope.md R7). -/
abbrev Word := BitVec 32

/-- One byte of data memory (20_memory.md R36). -/
abbrev Byte := BitVec 8

/-- One element value: the widest source element and the widest decoded element have 16 bits
(40_bitfield_units.md R66, R67, R73). -/
abbrev Elem := BitVec 16

end Sys2Proof
end

