-- ==== Sys2Proof/Syntax.lean ====
section
/-! DEFINITION. The commands: one constructor per row of spec/opcode_table.json (30_encoding.md R56). -/

namespace Sys2Proof

/-- The five operations that an OPC field can name (30_encoding.md R56). -/
inductive Opcode where
  | size
  | enc8
  | enc16
  | dec
  | dec3
deriving DecidableEq, Repr

/-- A command. Its one operand in the word is the raw 8-bit BPK field (30_encoding.md R55); every other operand is a
register. A BPK outside the command's legal set is still a command of its row: it ends with INVALID_WIDTH (R59). -/
inductive Instr where
  | size (bpk : BitVec 8)
  | enc8 (bpk : BitVec 8)
  | enc16 (bpk : BitVec 8)
  | dec (bpk : BitVec 8)
  | dec3 (bpk : BitVec 8)
deriving DecidableEq, Repr

/-- The operation of a command. -/
def Instr.opcode : Instr → Opcode
  | .size _ => .size
  | .enc8 _ => .enc8
  | .enc16 _ => .enc16
  | .dec _ => .dec
  | .dec3 _ => .dec3

/-- The BPK field of a command (30_encoding.md R54). -/
def Instr.bpk : Instr → BitVec 8
  | .size b => b
  | .enc8 b => b
  | .enc16 b => b
  | .dec b => b
  | .dec3 b => b

end Sys2Proof
end

