-- ==== Sys2Proof/Decode.lean ====
section
/-! DEFINITION. The command word's decoder and encoder (30_encoding.md R54 to R60). A command is the 32-bit value that
the host writes to CMD in one aligned access (R54), so the decoder's input is that value. -/

namespace Sys2Proof

/-- Why a word spells no command (30_encoding.md R59). Either reason ends the CMD write with ILLEGAL_COMMAND. -/
inductive DecodeError where
  | reservedBits        -- `w[31:16] != 0`
  | unassignedOpcode    -- OPC 0x00 or 0x06 to 0xFF
deriving DecidableEq, Repr

/-- RSV = `w[31:16]` (30_encoding.md R54). -/
def rsvField (w : Word) : BitVec 16 := w.extractLsb' 16 16

/-- BPK = `w[15:8]` (30_encoding.md R54). -/
def bpkField (w : Word) : BitVec 8 := w.extractLsb' 8 8

/-- OPC = `w[7:0]` (30_encoding.md R54). -/
def opcField (w : Word) : BitVec 8 := w.extractLsb' 0 8

/-- The operation an OPC names, none for the unassigned ones (30_encoding.md R56, R59). -/
def opcodeOf (opc : BitVec 8) : Option Opcode :=
  if opc = 0x01 then some .size
  else if opc = 0x02 then some .enc8
  else if opc = 0x03 then some .enc16
  else if opc = 0x04 then some .dec
  else if opc = 0x05 then some .dec3
  else none

/-- The command of an operation and a BPK field. -/
def instrOf (o : Opcode) (bpk : BitVec 8) : Instr :=
  match o with
  | .size => .size bpk
  | .enc8 => .enc8 bpk
  | .enc16 => .enc16 bpk
  | .dec => .dec bpk
  | .dec3 => .dec3 bpk

/-- The decoding part of `execute(w)` (30_encoding.md R57): the reserved bits first, then OPC (R90). -/
def decode (w : Word) : Except DecodeError Instr :=
  if rsvField w ≠ 0 then .error .reservedBits
  else
    match opcodeOf (opcField w) with
    | none => .error .unassignedOpcode
    | some o => .ok (instrOf o (bpkField w))

/-- The OPC value of each operation (30_encoding.md R56). -/
def opcodeCode : Opcode → BitVec 8
  | .size => 0x01
  | .enc8 => 0x02
  | .enc16 => 0x03
  | .dec => 0x04
  | .dec3 => 0x05

/-- The word of a command: `(bpk << 8) | OPC`, the reserved bits 0 (30_encoding.md R54, R61). -/
def encode (i : Instr) : Word := (i.bpk.setWidth 32 <<< 8) ||| (opcodeCode i.opcode).setWidth 32

/-- The word whose low `nbits` bits are those of `w`, as the opcode table numbers them; a command has one word
(30_encoding.md R60). -/
def tableWord (nbits w : Nat) : Word := BitVec.ofNat 32 (w % 2 ^ nbits)

/-- The command the decoder reads from a table row's bits. -/
def decodeTableWord (nbits w : Nat) : Option Instr :=
  match decode (tableWord nbits w) with
  | .ok i => some i
  | .error _ => none

end Sys2Proof
end

