-- ==== Sys2Proof/Config.lean ====
section
/-! DEFINITION. What the spec leaves open: its parameters (00_scope.md R7) and the free values of races and of a reset
that cuts a command short (20_memory.md R49, 70_reset_and_hazards.md R108). Nothing here can be evaluated but
`Config.launchByte`. -/

namespace Sys2Proof

/-- The free number behind `Config.memSize`. Log entry 2. -/
opaque Config.memSizeIndex : Nat

/-- `MEM_SIZE` of the machine that `State.reset` describes: any number from 1 to 2^32 (00_scope.md R7, D2). Log entry 2. -/
def Config.memSize : Nat := Config.memSizeIndex % 2 ^ 32 + 1

/-- The free number behind `Config.regBase`. Log entry 3. -/
opaque Config.regBaseIndex : Nat

/-- `REG_BASE`, the host address of the register window: any multiple of 64 (00_scope.md R7, D3). Log entry 3. -/
def Config.regBase : Nat := 64 * Config.regBaseIndex

/-- DESIGN CHOICE. What an address that memory does not list reads as. Memory at power-on is the host's launch state
(93_implementation_defined.md P14); every launch state is some list. Log entry 1. -/
def Config.launchByte : Byte := 0

/-- Free value: the value of a raced element, by the command's draw number and the element's index
(20_memory.md R49: "any value of its width"). Log entry 6. -/
opaque Config.freeElement : Nat → Nat → Elem

/-- Free value: a byte that an encode and another agent both wrote, by the command's draw number and the address.
Log entry 10. -/
opaque Config.freeByte : Nat → Nat → Byte

/-- Free value: whether the new byte is seen (true) or the old one, by draw number and address
(20_memory.md R49, 70_reset_and_hazards.md R108). Log entries 6 and 8. -/
opaque Config.freeChoice : Nat → Nat → Bool

end Sys2Proof
end

