-- ==== Sys2Proof/Machine/State.lean ====
section
/-! DEFINITION. The state of the codec unit (10_state.md), the reasons a step can stop, and the state after reset
(70_reset_and_hazards.md R107). -/

namespace Sys2Proof.Machine

/-- Data memory: (address, byte) pairs, addresses strictly rising, no byte equal to `Config.launchByte`
(20_memory.md R36; log entry 1). -/
abbrev Memory := List Host.Cell

/-- The STATUS register by its three fields; its other bits are always 0 (10_state.md R24), see `Status.word`. -/
structure Status where
  /-- Bit 0: a command is running (10_state.md R25). -/
  busy : Bool
  /-- Bit 1, sticky: some command has ended with an error since reset (10_state.md R26). -/
  errSeen : Bool
  /-- Bits 11:8: the code of the last completed command's outcome (10_state.md R27). -/
  errCode : BitVec 4
deriving DecidableEq, Repr

/-- Who accesses a register or data memory (10_state.md R16, 60_exceptions.md R104). The numbers are the model's own: they
tell one host from another, and one bus master or thread from another. -/
inductive Agent where
  /-- A host: it may issue commands. -/
  | host (number : Nat)
  /-- Another agent: it reads and writes data memory only. -/
  | other (number : Nat)
deriving DecidableEq, Repr

/-- The in-flight command (10_state.md R35). Its word stands in CMD. -/
structure InFlight where
  /-- The number of the host whose CMD write this is: that write completes only when the command does
  (10_state.md R23, R25; 20_memory.md R47). -/
  issuer : Nat
  /-- The draw number of this command's free values (log entry 6). -/
  tag : Nat
  /-- The addresses that other agents have written since the command began (20_memory.md R49). -/
  touched : List Nat
deriving DecidableEq, Repr

/-- What the world outside the unit can do to it (10_state.md R16, R29; 70_reset_and_hazards.md R107). A register access
carries the number of the host that makes it, its offset from `REG_BASE` and its width in bits. -/
inductive HostEvent where
  /-- A host writes a register. A write to CMD runs its command before the next event is served (10_state.md R23). -/
  | regWrite (host : Nat) (offset : Fin 64) (bits : Nat) (value : Word)
  /-- A host reads a register (10_state.md R29). -/
  | regRead (host : Nat) (offset : Fin 64) (bits : Nat)
  /-- A host's 32-bit write of a word to CMD whose command is still in flight when the next events arrive
  (10_state.md R30, R35). -/
  | cmdBegin (host : Nat) (word : Word)
  /-- A host or another agent writes bytes of data memory from an address on (30_encoding.md R61, 20_memory.md R49). -/
  | memWrite (agent : Agent) (addr : Nat) (bytes : List Byte)
  /-- A host or another agent reads one byte of data memory (10_state.md R16; 20_memory.md R47, R49). -/
  | memRead (agent : Agent) (addr : Nat)
  /-- The platform's reset input (70_reset_and_hazards.md R107, R108). -/
  | reset
deriving DecidableEq, Repr

/-- The state of the unit, its data memory, and what the hosts and agents do next. -/
structure State where
  /-- CMD (10_state.md R23). -/
  cmd : Word
  /-- STATUS (10_state.md R24). -/
  status : Status
  /-- N, the element count (10_state.md R18). -/
  n : Word
  /-- SRC, the address of source element 0 (10_state.md R19). -/
  src : Word
  /-- BUF, the address of packed byte 0 (10_state.md R20). -/
  buf : Word
  /-- BUFLEN, the declared length of the packed buffer (10_state.md R20). -/
  buflen : Word
  /-- IDX0, the index of DEC and the first of DEC3 (10_state.md R21). -/
  idx0 : Word
  /-- IDX1, the second index of DEC3 (10_state.md R21). -/
  idx1 : Word
  /-- IDX2, the third index of DEC3 (10_state.md R21). -/
  idx2 : Word
  /-- RES0 (10_state.md R28). -/
  res0 : Word
  /-- RES1 (10_state.md R28). -/
  res1 : Word
  /-- RES2 (10_state.md R28). -/
  res2 : Word
  /-- Data memory (20_memory.md R36). -/
  mem : Memory
  /-- `MEM_SIZE` (00_scope.md R7); no step changes it. Log entry 2. -/
  memSize : Nat
  /-- The in-flight command, if one is (10_state.md R35). -/
  inflight : Option InFlight
  /-- The model's own: what the hosts, the other agents and the reset input do next, oldest first
  (70_reset_and_hazards.md R117). Log entry 4. -/
  pending : List HostEvent
  /-- The model's own: the data of the last completed read of a register or a memory byte, whoever reads.
  Log entry 5. -/
  lastRead : Option Word
  /-- The model's own: the number of the next draw of a free value. Log entry 6. -/
  draws : Nat
deriving DecidableEq, Repr

/-- Why a step can stop with a fault. -/
inductive Fault where
  /-- Raised by a `memWrite` or `memRead` event (never by a command) that leaves `[0, MEM_SIZE)`: no such address exists
  (20_memory.md R36). Safe: the model stops where some platform might go on. Log entry 7. -/
  | noSuchAddress
deriving DecidableEq, Repr

/-- Why the model gives an event no meaning. -/
inductive Refusal where
  /-- An instruction that has no meaning yet, by its mnemonic; no instruction of this model is refused so. Safe. -/
  | notModelled (mnemonic : String)
  /-- Raised by a register access that is not 32 bits wide or not at a multiple of 4: "A model refuses an access of
  another width or alignment" (10_state.md R29). Safe. -/
  | registerAccessForm
deriving DecidableEq, Repr

/-- The machine right after reset (70_reset_and_hazards.md R107): every register at its reset value, no command in
flight, nothing listed in memory (log entry 1), `MEM_SIZE` open (log entry 2), no host statement yet (log entry 4). -/
def State.reset : State where
  cmd := 0
  status := { busy := false, errSeen := false, errCode := 0 }
  n := 0
  src := 0
  buf := 0
  buflen := 0
  idx0 := 0
  idx1 := 0
  idx2 := 0
  res0 := 0
  res1 := 0
  res2 := 0
  mem := []
  memSize := Config.memSize
  inflight := none
  pending := []
  lastRead := none
  draws := 0

/-! Named updates, one per group of fields that a step writes together. -/

/-- Replace CMD. -/
def State.withCmd (s : State) (w : Word) : State := { s with cmd := w }

/-- Replace STATUS. -/
def State.withStatus (s : State) (st : Status) : State := { s with status := st }

/-- Replace RES0 (SIZE and DEC, 10_state.md R28). -/
def State.withRes0 (s : State) (v : Word) : State := { s with res0 := v }

/-- Replace RES0, RES1 and RES2 (DEC3, 10_state.md R28). -/
def State.withRes (s : State) (v0 v1 v2 : Word) : State := { s with res0 := v0, res1 := v1, res2 := v2 }

/-- Replace data memory. -/
def State.withMem (s : State) (m : Memory) : State := { s with mem := m }

/-- Replace the in-flight command. -/
def State.withInflight (s : State) (f : Option InFlight) : State := { s with inflight := f }

/-- Replace the list of events to come. -/
def State.withPending (s : State) (es : List HostEvent) : State := { s with pending := es }

/-- Record the data of a read. -/
def State.withLastRead (s : State) (v : Word) : State := { s with lastRead := some v }

/-- Replace the draw counter. -/
def State.withDraws (s : State) (d : Nat) : State := { s with draws := d }

end Sys2Proof.Machine
end

