-- ==== Sys2Proof/Machine/Datapath.lean ====
section
/-! DEFINITION. The pure datapath: the size function, the bit-field packer and unpacker, the packed image, and the
element locator (40_bitfield_units.md). Counts, offsets and sizes are natural numbers and never wrap
(00_scope.md R8). -/

namespace Sys2Proof.Machine

/-- A supported element width (00_scope.md R4). -/
inductive Width where
  | w4
  | w8
  | w12
  | w16
deriving DecidableEq, Repr

/-- The number of bits per key of a width. -/
def Width.bits : Width → Nat
  | .w4 => 4
  | .w8 => 8
  | .w12 => 12
  | .w16 => 16

/-- The bits `v[lo+len-1:lo]` of an element, with zeros above (00_scope.md R9). -/
def elemField (v : Elem) (lo len : Nat) : Elem := (v.extractLsb' lo len).setWidth 16

/-- The low byte of an element. -/
def lowByte (v : Elem) : Byte := v.setWidth 8

/-- `LE(b0, b1)`, low byte first (00_scope.md R12). -/
def le16 (b0 b1 : Byte) : Elem := b0.setWidth 16 ||| (b1.setWidth 16 <<< 8)

/-- `LE(b0, b1, b2)`, the 24-bit word of a trio (00_scope.md R12, 40_bitfield_units.md R72). -/
def le24 (b0 b1 b2 : Byte) : BitVec 24 :=
  b0.setWidth 24 ||| (b1.setWidth 24 <<< 8) ||| (b2.setWidth 24 <<< 16)

/-- `trunc_bpk`: the low bpk bits of a value (00_scope.md R9, 40_bitfield_units.md R69). -/
def truncElem (w : Width) (v : Elem) : Elem := elemField v 0 w.bits

/-- `size(n, bpk)` (40_bitfield_units.md R63). -/
def size (n : Nat) : Width → Nat
  | .w4 => (n + 1) / 2
  | .w8 => n
  | .w12 => (n + 1) / 2 * 3
  | .w16 => n * 2

/-- `pack4(lo, hi)` (40_bitfield_units.md R64). -/
def pack4 (lo hi : Elem) : Byte := lowByte ((lo &&& 0x000F#16) ||| ((hi &&& 0x000F#16) <<< 4))

/-- `pack8(v)` (40_bitfield_units.md R65). -/
def pack8 (v : Elem) : Byte := lowByte v

/-- `pack12(a, b)`, the three bytes of a trio (40_bitfield_units.md R66; 90_conflicts.md C2, C3). -/
def pack12 (a b : Elem) : List Byte :=
  [lowByte (elemField a 0 8),
   lowByte (elemField a 8 4 ||| (elemField b 0 4 <<< 4)),
   lowByte (elemField b 4 8)]

/-- `pack16(v)`, low byte first (40_bitfield_units.md R67). -/
def pack16 (v : Elem) : List Byte := [lowByte (elemField v 0 8), lowByte (elemField v 8 8)]

/-- `image(v, 4)`: one byte per pair, the missing partner of an odd tail is 0 (40_bitfield_units.md R68). -/
def image4 : List Elem → List Byte
  | [] => []
  | [a] => [pack4 a 0]
  | a :: b :: rest => pack4 a b :: image4 rest

/-- `image(v, 12)`: one trio per pair, the missing partner of an odd tail is 0 (40_bitfield_units.md R68). -/
def image12 : List Elem → List Byte
  | [] => []
  | [a] => pack12 a 0
  | a :: b :: rest => pack12 a b ++ image12 rest

/-- `image(v, bpk)`, the packed image of a source sequence (40_bitfield_units.md R68). -/
def image (v : List Elem) : Width → List Byte
  | .w4 => image4 v
  | .w8 => v.map pack8
  | .w12 => image12 v
  | .w16 => v.flatMap pack16

/-- `unpack4(B, i)`: the low nibble for an even index, else the high one (40_bitfield_units.md R70). -/
def unpack4 (b : Byte) (i : Nat) : Elem :=
  if i % 2 = 0 then elemField (b.setWidth 16) 0 4 else elemField (b.setWidth 16) 4 4

/-- `unpack8(B)` (40_bitfield_units.md R71). -/
def unpack8 (b : Byte) : Elem := b.setWidth 16

/-- `unpack12(B0, B1, B2, i)`: bits 11:0 of the trio's word for an even index, else bits 23:12
(40_bitfield_units.md R72). -/
def unpack12 (b0 b1 b2 : Byte) (i : Nat) : Elem :=
  if i % 2 = 0 then ((le24 b0 b1 b2).extractLsb' 0 12).setWidth 16
  else ((le24 b0 b1 b2).extractLsb' 12 12).setWidth 16

/-- `unpack16(B0, B1)` (40_bitfield_units.md R73). -/
def unpack16 (b0 b1 : Byte) : Elem := le16 b0 b1

/-- `off(i, bpk)`, the offset of the first byte read for index i (40_bitfield_units.md R74). -/
def off (i : Nat) : Width → Nat
  | .w4 => i / 2
  | .w8 => i
  | .w12 => i / 2 * 3
  | .w16 => i * 2

/-- The number of bytes read for one index (40_bitfield_units.md R74, 20_memory.md R42). -/
def bytesRead : Width → Nat
  | .w4 => 1
  | .w8 => 1
  | .w12 => 3
  | .w16 => 2

/-- `extent(i, bpk)`, the buffer length index i needs (40_bitfield_units.md R74). -/
def extent (i : Nat) (w : Width) : Nat := off i w + bytesRead w

/-- `dec(b, i, bpk)` over a reader of single bytes: the located bytes through the unpacker (40_bitfield_units.md R75). -/
def decodeAt (readByte : Nat → Byte) (base i : Nat) (w : Width) : Elem :=
  let a := base + off i w
  match w with
  | .w4 => unpack4 (readByte a) i
  | .w8 => unpack8 (readByte a)
  | .w12 => unpack12 (readByte a) (readByte (a + 1)) (readByte (a + 2)) i
  | .w16 => unpack16 (readByte a) (readByte (a + 1))

end Sys2Proof.Machine
end

