-- ==== Sys2Proof/Machine/Flags.lean ====
section
/-! DEFINITION. The error codes and every change of STATUS (10_state.md R24 to R27, 60_exceptions.md R88, R89). -/

namespace Sys2Proof.Machine

/-- How a command ends (60_exceptions.md R89). -/
inductive ErrorCode where
  | none
  | illegalCommand
  | invalidWidth
  | sizeOverflow
  | bufferTooSmall
  | outOfRange
  | accessFault
  | overlap
deriving DecidableEq, Repr

/-- `code(E)`, the ERRCODE value of an outcome (60_exceptions.md R89). -/
def errorCodeBits : ErrorCode → BitVec 4
  | .none => 0
  | .illegalCommand => 1
  | .invalidWidth => 2
  | .sizeOverflow => 3
  | .bufferTooSmall => 4
  | .outOfRange => 5
  | .accessFault => 6
  | .overlap => 7

/-- STATUS at the start of a command: BUSY is set (30_encoding.md R57, 10_state.md R25). -/
def Status.started (st : Status) : Status := { st with busy := true }

/-- STATUS at the completion of a command: `complete(E)` of 60_exceptions.md R88. -/
def Status.completed (st : Status) (e : ErrorCode) : Status where
  busy := false
  errSeen := st.errSeen || decide (e ≠ .none)
  errCode := errorCodeBits e

/-- STATUS as the host reads it: BUSY at bit 0, ERRSEEN at bit 1, ERRCODE at bits 11:8, every other bit 0
(10_state.md R24). -/
def Status.word (st : Status) : Word :=
  (BitVec.ofBool st.busy).setWidth 32 ||| ((BitVec.ofBool st.errSeen).setWidth 32 <<< 1) |||
    (st.errCode.setWidth 32 <<< 8)

end Sys2Proof.Machine
end

