-- ==== Sys2Proof/Machine/Ops.lean ====
section
/-! DEFINITION. The shared operations: data memory, the range check, the start and the completion of a command with its
error reporting (20_memory.md R36, R37; 30_encoding.md R57; 60_exceptions.md R88, R99), and the race bookkeeping of an
in-flight command (20_memory.md R49). -/

namespace Sys2Proof.Machine

/-- `MemRead(a, 1)` (00_scope.md R11). -/
def Memory.read : Memory → Nat → Byte
  | [], _ => Config.launchByte
  | (k, b) :: rest, a => if k = a then b else Memory.read rest a

/-- `MemWrite(a, 1, v)` (00_scope.md R11), keeping the canonical form. -/
def Memory.write : Memory → Nat → Byte → Memory
  | [], a, v => if v = Config.launchByte then [] else [(a, v)]
  | (k, b) :: rest, a, v =>
    if a < k then
      if v = Config.launchByte then (k, b) :: rest else (a, v) :: (k, b) :: rest
    else if a = k then
      if v = Config.launchByte then rest else (a, v) :: rest
    else (k, b) :: Memory.write rest a v

/-- Write a list of cells, first to last. -/
def Memory.writeCells : Memory → List Host.Cell → Memory
  | m, [] => m
  | m, (a, v) :: rest => Memory.writeCells (m.write a v) rest

/-- The cells that a sequence of bytes fills from an address on. -/
def cellsFrom : Nat → List Byte → List Host.Cell
  | _, [] => []
  | a, b :: rest => (a, b) :: cellsFrom (a + 1) rest

/-- The byte a list of cells gives an address, if it gives one. -/
def cellAt : List Host.Cell → Nat → Option Byte
  | [], _ => none
  | (k, b) :: rest, a => if k = a then some b else cellAt rest a

/-- Every listed address lies above `a`, in strictly rising order, and no listed byte is what an unlisted address reads
as. -/
def Memory.wfAbove : Nat → Memory → Bool
  | _, [] => true
  | a, (k, b) :: rest => decide (a < k) && decide (b ≠ Config.launchByte) && Memory.wfAbove k rest

/-- The canonical form of memory. -/
def Memory.wf : Memory → Bool
  | [] => true
  | (k, b) :: rest => decide (b ≠ Config.launchByte) && Memory.wfAbove k rest

/-- Every listed address is below `MEM_SIZE` (20_memory.md R36). -/
def Memory.below (m : Memory) (size : Nat) : Bool := m.all fun c => decide (c.1 < size)

/-- `inMem(b, L)` (20_memory.md R37): an empty range is never checked. -/
def inMem (memSize b len : Nat) : Bool := len == 0 || decide (b + len ≤ memSize)

/-- Whether two byte ranges share a byte (42_encoder.md R80). -/
def rangesOverlap (a lenA b lenB : Nat) : Bool :=
  decide (0 < lenA) && decide (0 < lenB) && decide (a < b + lenB) && decide (b < a + lenA)

/-- Another agent has written this address since the in-flight command began (20_memory.md R49). -/
def State.raced (s : State) (a : Nat) : Bool :=
  match s.inflight with
  | none => false
  | some f => f.touched.contains a

/-- The draw number of the in-flight command's free values (log entry 6). -/
def State.tag (s : State) : Nat :=
  match s.inflight with
  | none => s.draws
  | some f => f.tag

/-- The start of host `h`'s CMD write of `w`: CMD latches the word, BUSY is set and the command is in flight
(30_encoding.md R57, 10_state.md R23, R25, R35). -/
def startCommand (h : Nat) (w : Word) (s : State) : State :=
  ((s.withCmd w).withStatus s.status.started).withInflight (some { issuer := h, tag := s.draws, touched := [] })

/-- `complete(E)` (60_exceptions.md R88): STATUS alone changes, and no command is in flight any more. This is also how an
error is taken: there is no trap, and control goes nowhere (R99). -/
def complete (e : ErrorCode) (s : State) : State :=
  (s.withStatus (s.status.completed e)).withInflight none

/-- `raise E` (00_scope.md R13): the command ends at once with the error and no other effect (60_exceptions.md R88). -/
def raise (e : ErrorCode) (s : State) : Host.Outcome State Fault Refusal := .next (complete e s)

/-- The end of a command's body: either the error it raised, with none of its effect, or its effect and then
`complete(NONE)` (30_encoding.md R57). -/
def finish (s : State) : Except ErrorCode State → Host.Outcome State Fault Refusal
  | .error e => raise e s
  | .ok t => .next (complete .none t)

end Sys2Proof.Machine
end

