-- ==== Sys2Proof/Machine/Operands.lean ====
section
/-! DEFINITION. The operands: the width a BPK field names (30_encoding.md R55, R58), the encoder's source elements
(20_memory.md R39), the cells an encode fills, and the value a decode finds (40_bitfield_units.md R75), each with its
race outcome (20_memory.md R49). -/

namespace Sys2Proof.Machine

/-- The width a BPK value names, unscaled and unbiased (30_encoding.md R55). -/
def widthOf (bpk : BitVec 8) : Option Width :=
  if bpk = 4 then some .w4
  else if bpk = 8 then some .w8
  else if bpk = 12 then some .w12
  else if bpk = 16 then some .w16
  else none

/-- Whether an operation takes a width: `legal(OPC)` (30_encoding.md R58). -/
def takesWidth : Opcode → Width → Bool
  | .size, _ => true
  | .enc8, w => w == .w4 || w == .w8
  | .enc16, w => w == .w12 || w == .w16
  | .dec, _ => true
  | .dec3, _ => true

/-- The width check of the prologue (30_encoding.md R57): none raises INVALID_WIDTH. -/
def legalWidth (o : Opcode) (bpk : BitVec 8) : Option Width := (widthOf bpk).filter (takesWidth o)

/-- One byte of data memory as the unit reads it. -/
def State.byteAt (s : State) (a : Nat) : Byte := s.mem.read a

/-- Source element k of ENC8 (20_memory.md R39), any value if its byte is raced (R49; log entry 6). -/
def srcElem8 (s : State) (k : Nat) : Elem :=
  let a := s.src.toNat + k
  if s.raced a then (lowByte (Config.freeElement s.tag k)).setWidth 16 else (s.byteAt a).setWidth 16

/-- Source element k of ENC16, little-endian (20_memory.md R39), any value if one of its bytes is raced
(R49; log entry 6). -/
def srcElem16 (s : State) (k : Nat) : Elem :=
  let a := s.src.toNat + 2 * k
  if s.raced a || s.raced (a + 1) then Config.freeElement s.tag k else le16 (s.byteAt a) (s.byteAt (a + 1))

/-- The source array `v[0..n)` of ENC8. -/
def sourceOf8 (s : State) : List Elem := (List.range s.n.toNat).map (srcElem8 s)

/-- The source array `v[0..n)` of ENC16. -/
def sourceOf16 (s : State) : List Elem := (List.range s.n.toNat).map (srcElem16 s)

/-- A destination cell of an encode: the byte of the image, or any byte where another agent has written the same
address meanwhile (log entry 10). -/
def destCell (s : State) (c : Host.Cell) : Host.Cell :=
  if s.raced c.1 then (c.1, Config.freeByte s.tag c.1) else c

/-- The cells an encode of a packed image fills, from BUF on (42_encoder.md R83). -/
def destCells (s : State) (bytes : List Byte) : List Host.Cell :=
  (cellsFrom s.buf.toNat bytes).map (destCell s)

/-- One of the bytes that a decode of index i reads is raced (20_memory.md R49). -/
def decodeRaced (s : State) (i : Nat) (w : Width) : Bool :=
  (List.range (bytesRead w)).any fun j => s.raced (s.buf.toNat + off i w + j)

/-- `dec(x[BUF], i, bpk)` (40_bitfield_units.md R75), any value of the element width if a byte it reads is raced
(20_memory.md R49; log entry 6). `slot` numbers the command's results. -/
def decValue (s : State) (slot i : Nat) (w : Width) : Elem :=
  if decodeRaced s i w then truncElem w (Config.freeElement s.tag slot)
  else decodeAt s.byteAt s.buf.toNat i w

/-- A decoded value as a result register holds it, zero-extended (10_state.md R28). -/
def resultWord (v : Elem) : Word := v.setWidth 32

end Sys2Proof.Machine
end

