-- ==== Sys2Proof/Machine/Decoder.lean ====
section
/-! DEFINITION. The packed-codec decoder commands, DEC (43_scalar_decoder.md) and DEC3 (44_batch_decoder.md). -/

namespace Sys2Proof.Machine

/-- The decoders' check of the extent `e`: BUFLEN first, then memory (43_scalar_decoder.md R84, 44_batch_decoder.md R86,
60_exceptions.md R97). -/
def decCheck (e : Nat) (s : State) : Option ErrorCode :=
  if s.buflen.toNat < e then some .outOfRange
  else if inMem s.memSize s.buf.toNat e = false then some .accessFault
  else none

/-- The body of DEC after the prologue's width check (43_scalar_decoder.md R84, 30_encoding.md R57). -/
def decBody (bpk : BitVec 8) (s : State) : Except ErrorCode State :=
  match legalWidth .dec bpk with
  | none => .error .invalidWidth
  | some w =>
    match decCheck (extent s.idx0.toNat w) s with
    | some e => .error e
    | none => .ok (s.withRes0 (resultWord (decValue s 0 s.idx0.toNat w)))

/-- The largest of DEC3's three indices (44_batch_decoder.md R86). -/
def maxIndex (s : State) : Nat := max (max s.idx0.toNat s.idx1.toNat) s.idx2.toNat

/-- The body of DEC3 after the prologue's width check: one check at the largest index, then the three results in
register order (44_batch_decoder.md R86, 30_encoding.md R57). -/
def dec3Body (bpk : BitVec 8) (s : State) : Except ErrorCode State :=
  match legalWidth .dec3 bpk with
  | none => .error .invalidWidth
  | some w =>
    match decCheck (extent (maxIndex s) w) s with
    | some e => .error e
    | none =>
      .ok (s.withRes (resultWord (decValue s 0 s.idx0.toNat w)) (resultWord (decValue s 1 s.idx1.toNat w))
        (resultWord (decValue s 2 s.idx2.toNat w)))

/-- DEC (43_scalar_decoder.md R84). -/
def execDec (bpk : BitVec 8) (s : State) : Host.Outcome State Fault Refusal := finish s (decBody bpk s)

/-- DEC3 (44_batch_decoder.md R86). -/
def execDec3 (bpk : BitVec 8) (s : State) : Host.Outcome State Fault Refusal := finish s (dec3Body bpk s)

end Sys2Proof.Machine
end

