-- ==== Sys2Proof/Machine/Encoder.lean ====
section
/-! DEFINITION. The packed-codec encoder commands, ENC8 and ENC16 (42_encoder.md). -/

namespace Sys2Proof.Machine

/-- `enc_check(bpk, srcBytes)`: the first error that applies, in the order of 42_encoder.md R80 (60_exceptions.md R97);
none when the encode may run. -/
def encCheck (w : Width) (srcBytes : Nat) (s : State) : Option ErrorCode :=
  let z := size s.n.toNat w
  if 2 ^ 32 ≤ z then some .sizeOverflow
  else if s.buflen.toNat < z then some .bufferTooSmall
  else if inMem s.memSize s.src.toNat srcBytes = false then some .accessFault
  else if inMem s.memSize s.buf.toNat z = false then some .accessFault
  else if rangesOverlap s.src.toNat srcBytes s.buf.toNat z then some .overlap
  else none

/-- The cells an encode writes once its checks have passed. -/
def checkedCells (check : Option ErrorCode) (cells : List Host.Cell) : Except ErrorCode (List Host.Cell) :=
  match check with
  | some e => .error e
  | none => .ok cells

/-- What ENC8 writes to memory, or the error it raises (42_encoder.md R81, 30_encoding.md R57). -/
def enc8Cells (bpk : BitVec 8) (s : State) : Except ErrorCode (List Host.Cell) :=
  match legalWidth .enc8 bpk with
  | none => .error .invalidWidth
  | some w => checkedCells (encCheck w s.n.toNat s) (destCells s (image (sourceOf8 s) w))

/-- What ENC16 writes to memory, or the error it raises (42_encoder.md R82, 30_encoding.md R57). -/
def enc16Cells (bpk : BitVec 8) (s : State) : Except ErrorCode (List Host.Cell) :=
  match legalWidth .enc16 bpk with
  | none => .error .invalidWidth
  | some w => checkedCells (encCheck w (2 * s.n.toNat) s) (destCells s (image (sourceOf16 s) w))

/-- The effect of an encode: its cells are written to memory and nothing else changes (42_encoder.md R83). -/
def encodeBody (s : State) (cells : Except ErrorCode (List Host.Cell)) : Except ErrorCode State :=
  match cells with
  | .error e => .error e
  | .ok cs => .ok (s.withMem (s.mem.writeCells cs))

/-- ENC8 (42_encoder.md R81). -/
def execEnc8 (bpk : BitVec 8) (s : State) : Host.Outcome State Fault Refusal :=
  finish s (encodeBody s (enc8Cells bpk s))

/-- ENC16 (42_encoder.md R82). -/
def execEnc16 (bpk : BitVec 8) (s : State) : Host.Outcome State Fault Refusal :=
  finish s (encodeBody s (enc16Cells bpk s))

end Sys2Proof.Machine
end

