-- ==== Sys2Proof/Machine/SizeCalculator.lean ====
section
/-! DEFINITION. The size calculator command, SIZE (41_size.md). -/

namespace Sys2Proof.Machine

/-- The body of SIZE after the prologue's width check (41_size.md R79, 30_encoding.md R57). -/
def sizeBody (bpk : BitVec 8) (s : State) : Except ErrorCode State :=
  match legalWidth .size bpk with
  | none => .error .invalidWidth
  | some w =>
    let z := size s.n.toNat w
    if 2 ^ 32 ≤ z then .error .sizeOverflow else .ok (s.withRes0 (BitVec.ofNat 32 z))

/-- SIZE (41_size.md R79). -/
def execSize (bpk : BitVec 8) (s : State) : Host.Outcome State Fault Refusal := finish s (sizeBody bpk s)

end Sys2Proof.Machine
end

