-- ==== Sys2Proof/Machine/Dispatch.lean ====
section
/-! DEFINITION. One arm per command (30_encoding.md R56). -/

namespace Sys2Proof.Machine

def exec (i : Instr) (s : State) : Host.Outcome State Fault Refusal :=
  match i with
  | .size bpk => Sys2Proof.Machine.execSize bpk s
  | .enc8 bpk => Sys2Proof.Machine.execEnc8 bpk s
  | .enc16 bpk => Sys2Proof.Machine.execEnc16 bpk s
  | .dec bpk => Sys2Proof.Machine.execDec bpk s
  | .dec3 bpk => Sys2Proof.Machine.execDec3 bpk s

end Sys2Proof.Machine
end

