-- ==== Sys2Proof/Machine/Window.lean ====
section
/-! DEFINITION. The register window (10_state.md R17, R22, R29). -/

namespace Sys2Proof.Machine

/-- The registers by their names (10_state.md R17). -/
inductive RegName where
  | id
  | cmd
  | status
  | n
  | src
  | buf
  | buflen
  | idx0
  | idx1
  | idx2
  | res0
  | res1
  | res2
deriving DecidableEq, Repr

/-- The byte offset of a register from `REG_BASE` (10_state.md R17). -/
def offsetOf : RegName → Fin 64
  | .id => 0x00
  | .cmd => 0x04
  | .status => 0x08
  | .n => 0x0C
  | .src => 0x10
  | .buf => 0x14
  | .buflen => 0x18
  | .idx0 => 0x1C
  | .idx1 => 0x20
  | .idx2 => 0x24
  | .res0 => 0x28
  | .res1 => 0x2C
  | .res2 => 0x30

/-- All registers, by rising offset. -/
def regNames : List RegName :=
  [.id, .cmd, .status, .n, .src, .buf, .buflen, .idx0, .idx1, .idx2, .res0, .res1, .res2]

/-- The register at an offset, none for a reserved one (10_state.md R17). -/
def regAt (offset : Fin 64) : Option RegName := regNames.find? fun r => offsetOf r = offset

/-- The offset of a host address in the window at `REG_BASE`, none outside it (10_state.md R17, R34; log entry 3). -/
def windowOffset (addr : Nat) : Option (Fin 64) :=
  if h : Config.regBase ≤ addr ∧ addr - Config.regBase < 64 then some ⟨addr - Config.regBase, h.2⟩ else none

/-- The value that ID always reads (10_state.md R22). -/
def idValue : Word := 0x42504B07

/-- `x[R]`, a host read of a register (10_state.md R29). -/
def readReg (r : RegName) (s : State) : Word :=
  match r with
  | .id => idValue
  | .cmd => s.cmd
  | .status => s.status.word
  | .n => s.n
  | .src => s.src
  | .buf => s.buf
  | .buflen => s.buflen
  | .idx0 => s.idx0
  | .idx1 => s.idx1
  | .idx2 => s.idx2
  | .res0 => s.res0
  | .res1 => s.res1
  | .res2 => s.res2

/-- `x[R] <- v`, a host write of a register: the RW registers take the value, CMD latches it, a write of a RO register
has no effect (10_state.md R17, R23, R29). What a CMD write runs is `execute`. -/
def writeReg (r : RegName) (v : Word) (s : State) : State :=
  match r with
  | .id => s
  | .cmd => s.withCmd v
  | .status => s
  | .n => { s with n := v }
  | .src => { s with src := v }
  | .buf => { s with buf := v }
  | .buflen => { s with buflen := v }
  | .idx0 => { s with idx0 := v }
  | .idx1 => { s with idx1 := v }
  | .idx2 => { s with idx2 := v }
  | .res0 => s
  | .res1 => s
  | .res2 => s

/-- A register access has the one form the unit serves: 32 bits wide at a multiple of 4 (10_state.md R29). -/
def accessOk (offset : Fin 64) (bits : Nat) : Bool := bits == 32 && offset.val % 4 == 0

/-- The data a register read returns: 0 at a reserved offset (10_state.md R29). -/
def windowRead (offset : Fin 64) (s : State) : Word :=
  match regAt offset with
  | none => 0
  | some r => readReg r s

/-- A host register read: no side effect but the data it returns (10_state.md R29). -/
def serveRegRead (offset : Fin 64) (bits : Nat) (s : State) : Host.Outcome State Fault Refusal :=
  if accessOk offset bits then .next (s.withLastRead (windowRead offset s)) else .refused .registerAccessForm

end Sys2Proof.Machine
end

