-- ==== Sys2Proof/WellFormed.lean ====
section
/-! DEFINITION. The well-formed commands: the 16 legal words of 30_encoding.md R56, by the legal sets of R58. -/

namespace Sys2Proof

/-- `legal(OPC)` as 30_encoding.md R58 lists it. -/
def legalBpk : Opcode → List Nat
  | .size => [4, 8, 12, 16]
  | .enc8 => [4, 8]
  | .enc16 => [12, 16]
  | .dec => [4, 8, 12, 16]
  | .dec3 => [4, 8, 12, 16]

/-- A command is well formed when its BPK is in its operation's legal set (30_encoding.md R58). -/
def Instr.wellFormed (i : Instr) : Bool := (legalBpk i.opcode).contains i.bpk.toNat

end Sys2Proof
end

