-- ==== Sys2Proof/Machine/Command.lean ====
section
/-! DEFINITION. A CMD write: `execute(w)` of 30_encoding.md R57, whole or in its two parts (start and completion), and
every host register write (10_state.md R23, R29). -/

namespace Sys2Proof.Machine

/-- The rest of a command that has started: its word stands in CMD. An illegal word raises ILLEGAL_COMMAND
(30_encoding.md R57, R59). -/
def runStarted (s : State) : Host.Outcome State Fault Refusal :=
  match decode s.cmd with
  | .error _ => raise .illegalCommand s
  | .ok i => exec i s

/-- `execute(w)` (30_encoding.md R57), a CMD write by host `h`: one atomic step from the CMD write to the completion
(70_reset_and_hazards.md R116). -/
def execute (h : Nat) (w : Word) (s : State) : Host.Outcome State Fault Refusal := runStarted (startCommand h w s)

/-- A CMD write of `w` by host `h` whose command stays in flight. An illegal value "completes at once with ILLEGAL_COMMAND or
INVALID_WIDTH" (10_state.md R23). -/
def beginCommand (h : Nat) (w : Word) (s : State) : Host.Outcome State Fault Refusal :=
  match decode w with
  | .error _ => execute h w s
  | .ok i => if i.wellFormed then .next (startCommand h w s) else execute h w s

/-- A host write of the register at an offset: CMD runs its command, a reserved offset ignores it
(10_state.md R17, R23, R29). -/
def windowWrite (h : Nat) (offset : Fin 64) (v : Word) (s : State) : Host.Outcome State Fault Refusal :=
  match regAt offset with
  | none => .next s
  | some r => if r = .cmd then execute h v s else .next (writeReg r v s)

/-- A host register write (10_state.md R29). -/
def serveRegWrite (h : Nat) (offset : Fin 64) (bits : Nat) (v : Word) (s : State) : Host.Outcome State Fault Refusal :=
  if accessOk offset bits then windowWrite h offset v s else .refused .registerAccessForm

end Sys2Proof.Machine
end

