-- ==== Sys2Proof/Machine/Footprint.lean ====
section
/-! DEFINITION. The bytes a command reads and writes (20_memory.md R42, 42_encoder.md R83, 43_scalar_decoder.md R85). A
command that ends with an error touches none (60_exceptions.md R88). -/

namespace Sys2Proof.Machine

/-- `len` addresses from `a` on. -/
def addressesFrom (a len : Nat) : List Nat := (List.range len).map fun j => a + j

/-- The bytes read for one index (43_scalar_decoder.md R85). -/
def decodeFootprint (bpk : BitVec 8) (s : State) (i : Nat) : List Nat :=
  match widthOf bpk with
  | none => []
  | some w => addressesFrom (s.buf.toNat + off i w) (bytesRead w)

/-- Keep a list only if the body it belongs to raises no error. -/
def unlessError {α : Type} (body : Except ErrorCode α) (l : List Nat) : List Nat :=
  match body with
  | .error _ => []
  | .ok _ => l

/-- The data-memory bytes a command reads, each as often as the command names it (20_memory.md R42). -/
def readFootprint (i : Instr) (s : State) : List Nat :=
  match i with
  | .size _ => []
  | .enc8 b => unlessError (enc8Cells b s) (addressesFrom s.src.toNat s.n.toNat)
  | .enc16 b => unlessError (enc16Cells b s) (addressesFrom s.src.toNat (2 * s.n.toNat))
  | .dec b => unlessError (decBody b s) (decodeFootprint b s s.idx0.toNat)
  | .dec3 b =>
    unlessError (dec3Body b s)
      (decodeFootprint b s s.idx0.toNat ++ decodeFootprint b s s.idx1.toNat ++ decodeFootprint b s s.idx2.toNat)

/-- The cells a command writes to data memory (42_encoder.md R83): none but for a successful encode. -/
def commandCells (i : Instr) (s : State) : List Host.Cell :=
  match i with
  | .size _ => []
  | .enc8 b => (enc8Cells b s).toOption.getD []
  | .enc16 b => (enc16Cells b s).toOption.getD []
  | .dec _ => []
  | .dec3 _ => []

/-- The data-memory bytes a command writes (20_memory.md R42). -/
def writeFootprint (i : Instr) (s : State) : List Nat := (commandCells i s).map Prod.fst

end Sys2Proof.Machine
end

