-- ==== Sys2Proof/Machine/Events.lean ====
section
/-! DEFINITION. What each event does to the machine: between commands, and while one is in flight (10_state.md R29, R30,
R35; 20_memory.md R46, R47, R49; 70_reset_and_hazards.md R107, R108). -/

namespace Sys2Proof.Machine

/-- The reset input: every register takes its value of 70_reset_and_hazards.md R107 and no command is in flight. Data
memory, `MEM_SIZE` and what lies outside the unit stay. -/
def applyReset (s : State) : State :=
  { State.reset with
    mem := s.mem
    memSize := s.memSize
    pending := s.pending
    lastRead := s.lastRead
    draws := s.draws }

/-- Byte writes of a host or another agent between commands (30_encoding.md R61, 20_memory.md R46); an address outside
data memory does not exist (20_memory.md R36; log entry 7). -/
def serveMemWrite (addr : Nat) (bytes : List Byte) (s : State) : Host.Outcome State Fault Refusal :=
  if inMem s.memSize addr bytes.length then .next (s.withMem (s.mem.writeCells (cellsFrom addr bytes)))
  else .fault .noSuchAddress

/-- A byte read between commands: it sees every byte the commands before it wrote (20_memory.md R47; for agents other than
the host, log entry 9). -/
def serveMemRead (addr : Nat) (s : State) : Host.Outcome State Fault Refusal :=
  if inMem s.memSize addr 1 then .next (s.withLastRead ((s.byteAt addr).setWidth 32)) else .fault .noSuchAddress

/-- An event that meets no command in flight. -/
def serveIdle (e : HostEvent) (s : State) : Host.Outcome State Fault Refusal :=
  match e with
  | .regWrite h offset bits v => serveRegWrite h offset bits v s
  | .regRead _ offset bits => serveRegRead offset bits s
  | .cmdBegin h w => beginCommand h w s
  | .memWrite _ addr bytes => serveMemWrite addr bytes s
  | .memRead _ addr => serveMemRead addr s
  | .reset => .next (applyReset s)

/-- The cells the in-flight command will have written when it completes. -/
def inflightCells (s : State) : List Host.Cell :=
  match decode s.cmd with
  | .error _ => []
  | .ok i => commandCells i s

/-- Record that another agent has written some addresses while a command is in flight (20_memory.md R49). -/
def State.touch (s : State) (addrs : List Nat) : State :=
  match s.inflight with
  | none => s
  | some f => s.withInflight (some { f with touched := addrs ++ f.touched })

/-- Take one number for free values (log entry 6). -/
def State.drawn (s : State) : State := s.withDraws (s.draws + 1)

/-- Byte writes of another agent while a command is in flight: they are performed, and the command's bytes among them are
raced (20_memory.md R49). -/
def raceMemWrite (addr : Nat) (bytes : List Byte) (s : State) : Host.Outcome State Fault Refusal :=
  if inMem s.memSize addr bytes.length then
    .next (((s.withMem (s.mem.writeCells (cellsFrom addr bytes))).touch ((cellsFrom addr bytes).map Prod.fst)).drawn)
  else .fault .noSuchAddress

/-- The byte another agent sees at an address while a command is in flight: where the command writes it, "either the old
value or the new one" (20_memory.md R49; log entry 6). DESIGN CHOICE: the new one is the byte the command would leave if it
completed now, also where a later write of its source makes the byte it does leave another (log entry 14).
DESIGN CHOICE: every read draws anew, so a later read may give the old byte after an earlier one gave the new (log
entry 15). -/
def racedByte (addr : Nat) (s : State) : Byte :=
  match cellAt (inflightCells s) addr with
  | none => s.byteAt addr
  | some new => if Config.freeChoice s.draws addr then new else s.byteAt addr

/-- A byte read of another agent while a command is in flight (20_memory.md R49). -/
def raceMemRead (addr : Nat) (s : State) : Host.Outcome State Fault Refusal :=
  if inMem s.memSize addr 1 then .next ((s.withLastRead ((racedByte addr s).setWidth 32)).drawn)
  else .fault .noSuchAddress

/-- Reset while a command is in flight: the command is abandoned. Each byte it would have written holds its old value or
the new one, a draw per byte; no other byte changes (70_reset_and_hazards.md R108; log entry 8). DESIGN CHOICE: the draw is
another than that of any read before (log entry 15). -/
def abandon (s : State) : State :=
  applyReset
    ((s.withMem (s.mem.writeCells ((inflightCells s).filter fun c => Config.freeChoice s.draws c.1))).drawn)

/-- The agent that makes an access, none for the reset input. -/
def HostEvent.agent : HostEvent → Option Agent
  | .regWrite h _ _ _ => some (.host h)
  | .regRead h _ _ => some (.host h)
  | .cmdBegin h _ => some (.host h)
  | .memWrite a _ _ => some a
  | .memRead a _ => some a
  | .reset => none

/-- A register access other than a STATUS read (10_state.md R30). A read of STATUS that is not 32 bits wide is no STATUS
read (log entry 11). -/
def HostEvent.stalls : HostEvent → Bool
  | .regWrite _ _ _ _ => true
  | .regRead _ o bits => !(decide (o = offsetOf .status) && decide (bits = 32))
  | .cmdBegin _ _ => true
  | .memWrite _ _ _ => false
  | .memRead _ _ => false
  | .reset => false

/-- An access that comes only after the in-flight command: one that has to wait for it (10_state.md R30), and every access
of the host that issued it, whose CMD write completes only with the command (10_state.md R23, R25; 20_memory.md R47). -/
def HostEvent.waitsFor (f : InFlight) (e : HostEvent) : Bool := e.stalls || decide (e.agent = some (.host f.issuer))

/-- The next event in arrival order when the command `f` is in flight. Where it has to wait, or none is to come, the command
completes and no event is taken (log entry 11). DESIGN CHOICE: a waiting access is never left behind by a reset; it stands
before the reset, and then the command completes, or after it (70_reset_and_hazards.md R108 speaks of the CMD write only;
log entry 13). -/
def serveInFlight (f : InFlight) (s : State) : Host.Outcome State Fault Refusal :=
  match s.pending with
  | [] => runStarted s
  | e :: rest =>
    if e.waitsFor f then runStarted s
    else
      match e with
      | .regRead _ offset bits => serveRegRead offset bits (s.withPending rest)
      | .memWrite _ addr bytes => raceMemWrite addr bytes (s.withPending rest)
      | .memRead _ addr => raceMemRead addr (s.withPending rest)
      | .reset => .next (abandon (s.withPending rest))
      | .regWrite _ _ _ _ => runStarted s
      | .cmdBegin _ _ => runStarted s

/-- The next event when no command is in flight; with none to come the unit is idle and holds its registers
(60_exceptions.md R106). -/
def serveNext (s : State) : Host.Outcome State Fault Refusal :=
  match s.pending with
  | [] => .next s
  | e :: rest => serveIdle e (s.withPending rest)

/-- The event by which host `h` writes a word to CMD (30_encoding.md R54). -/
def cmdWrite (h : Nat) (w : Word) : HostEvent := .regWrite h (offsetOf .cmd) 32 w

end Sys2Proof.Machine
end

