-- ==== Sys2Proof/Machine/Program.lean ====
section
/-! DEFINITION. The host-program assembly and its pseudo-instructions, as the events they stand for (30_encoding.md R61,
R62), and a launch state (70_reset_and_hazards.md R117). -/

namespace Sys2Proof.Machine

/-- One statement of a host program (30_encoding.md R61, R62). -/
inductive Stmt where
  /-- `WR REG, imm` -/
  | wr (r : RegName) (imm : Word)
  /-- `RD REG` -/
  | rd (r : RegName)
  /-- `CMD imm` -/
  | cmd (imm : Word)
  /-- `MNEMONIC bpk` -/
  | instr (i : Instr)
  /-- `MEM addr, b0, ...` -/
  | mem (addr : Nat) (bytes : List Byte)
  /-- `SIZEN bpk, n` -/
  | sizen (bpk : BitVec 8) (n : Word)
  /-- `ENC8A bpk, src, n, buf, buflen` -/
  | enc8a (bpk : BitVec 8) (src n buf buflen : Word)
  /-- `ENC16A bpk, src, n, buf, buflen` -/
  | enc16a (bpk : BitVec 8) (src n buf buflen : Word)
  /-- `DECI bpk, buf, buflen, i` -/
  | deci (bpk : BitVec 8) (buf buflen i : Word)
  /-- `DEC3I bpk, buf, buflen, i1, i2, i3` -/
  | dec3i (bpk : BitVec 8) (buf buflen i1 i2 i3 : Word)
deriving DecidableEq, Repr

/-- Host `h`'s bus write at an absolute address, if the address is in this unit's window (10_state.md R17; log entry 3). -/
def busWrite (h addr bits : Nat) (v : Word) : Option HostEvent :=
  (windowOffset addr).map fun o => .regWrite h o bits v

/-- Host `h`'s bus read at an absolute address, if the address is in this unit's window (10_state.md R17; log entry 3). -/
def busRead (h addr bits : Nat) : Option HostEvent := (windowOffset addr).map fun o => .regRead h o bits

/-- `WR REG, imm` as an event. -/
def wrEvent (h : Nat) (r : RegName) (imm : Word) : HostEvent := .regWrite h (offsetOf r) 32 imm

/-- The four operand writes of an encode (30_encoding.md R62). -/
def encOperands (h : Nat) (src n buf buflen : Word) : List HostEvent :=
  [wrEvent h .src src, wrEvent h .n n, wrEvent h .buf buf, wrEvent h .buflen buflen]

/-- The events of a statement of host `h`'s program, in order (30_encoding.md R61, R62). -/
def Stmt.events (h : Nat) : Stmt → List HostEvent
  | .wr r imm => [wrEvent h r imm]
  | .rd r => [.regRead h (offsetOf r) 32]
  | .cmd imm => [cmdWrite h imm]
  | .instr i => [cmdWrite h (encode i)]
  | .mem addr bytes => [.memWrite (.host h) addr bytes]
  | .sizen bpk n => [wrEvent h .n n, cmdWrite h (encode (.size bpk))]
  | .enc8a bpk src n buf buflen => encOperands h src n buf buflen ++ [cmdWrite h (encode (.enc8 bpk))]
  | .enc16a bpk src n buf buflen => encOperands h src n buf buflen ++ [cmdWrite h (encode (.enc16 bpk))]
  | .deci bpk buf buflen i =>
    [wrEvent h .buf buf, wrEvent h .buflen buflen, wrEvent h .idx0 i, cmdWrite h (encode (.dec bpk))]
  | .dec3i bpk buf buflen i1 i2 i3 =>
    [wrEvent h .buf buf, wrEvent h .buflen buflen, wrEvent h .idx0 i1, wrEvent h .idx1 i2, wrEvent h .idx2 i3,
      cmdWrite h (encode (.dec3 bpk))]

/-- The launch state of a run: reset registers, a data memory of a given size, and the program of one host, number 0
(70_reset_and_hazards.md R117; log entry 4). -/
def launch (memSize : Nat) (mem : Memory) (program : List Stmt) : State :=
  { State.reset with memSize := memSize, mem := mem, pending := program.flatMap (Stmt.events 0) }

end Sys2Proof.Machine
end

