-- ==== Sys2Proof/Machine/Step.lean ====
section
/-! DEFINITION. One step: the next event in arrival order, a whole CMD write being one step
(70_reset_and_hazards.md R116). The unit has no program counter and fetches nothing (10_state.md R31). -/

namespace Sys2Proof.Machine

/-- One step of the machine. -/
def step (s : State) : Host.Outcome State Fault Refusal :=
  match s.inflight with
  | none => serveNext s
  | some f => serveInFlight f s

/-- The state whose next step is the CMD write of a table row's bits: that write, by host 0, stands at the head of what the host
does next, and no command is in flight (log entry 4). -/
def State.withFetchWord (s : State) (nbits w : Nat) : State :=
  (s.withInflight none).withPending (cmdWrite 0 (tableWord nbits w) :: s.pending)

end Sys2Proof.Machine
end

