-- ==== Sys2Proof/Safety.lean ====
section
/-! DEFINITION. What counts as a safe state and a safe end of a run. -/

namespace Sys2Proof.Machine

/-- STATUS is legal: ERRCODE is one of 0 to 7, and a non-zero ERRCODE has left ERRSEEN set
(10_state.md R26, R27). -/
def statusLegal (st : Status) : Bool := decide (st.errCode.toNat < 8) && (decide (st.errCode = 0) || st.errSeen)

/-- `MEM_SIZE` is a value the spec allows (00_scope.md R7). -/
def memSizeLegal (size : Nat) : Bool := decide (1 ≤ size) && decide (size ≤ 2 ^ 32)

/-- A word spells one of the 16 legal commands (30_encoding.md R56). -/
def isLegalWord (w : Word) : Bool :=
  match decode w with
  | .error _ => false
  | .ok i => i.wellFormed

/-- An in-flight command has a legal word: an illegal one completes at once (10_state.md R23). -/
def inflightLegal (s : State) : Bool := s.inflight.isNone || isLegalWord s.cmd

/-- The invariant of the machine: memory is canonical and lies inside `[0, MEM_SIZE)`, `MEM_SIZE` is legal, BUSY is 1
exactly while a command is in flight (10_state.md R25), STATUS is legal, and an in-flight command is a legal one. -/
structure Inv (s : State) : Prop where
  memCanonical : s.mem.wf = true
  memInside : s.mem.below s.memSize = true
  sizeLegal : memSizeLegal s.memSize = true
  busyInFlight : s.status.busy = s.inflight.isSome
  status : statusLegal s.status = true
  inflight : inflightLegal s = true

/-- No other agent has written a byte that the command reads or writes, while it was in flight: what the duty of
70_reset_and_hazards.md R112 gives every command. Writes to any other byte are allowed. -/
def Unraced (i : Instr) (s : State) : Prop :=
  ∀ a, a ∈ readFootprint i s ∨ a ∈ writeFootprint i s → s.raced a = false

/-- No other agent has written any byte at all since the in-flight command began. This is more than the duty of
70_reset_and_hazards.md R112 asks, see `Unraced`; a command that has just started meets it. -/
def Undisturbed (s : State) : Prop := ∀ f, s.inflight = some f → f.touched = []

/-- With no command in flight, the event runs a whole command: a CMD write, or the begin of an illegal one, which completes
at once (10_state.md R23). -/
def HostEvent.runsCommand : HostEvent → Bool
  | .regWrite _ o bits _ => accessOk o bits && decide (o = offsetOf .cmd)
  | .regRead _ _ _ => false
  | .cmdBegin _ w => !isLegalWord w
  | .memWrite _ _ _ => false
  | .memRead _ _ => false
  | .reset => false

/-- The next step of the state completes a command (60_exceptions.md R88). -/
def State.completesCommand (s : State) : Bool :=
  match s.inflight, s.pending with
  | some _, [] => true
  | some f, e :: _ => e.waitsFor f
  | none, [] => false
  | none, e :: _ => e.runsCommand

/-- `k` steps of a run, stopping at the first fault or refusal (70_reset_and_hazards.md R117). -/
def runSteps : Nat → State → Host.Outcome State Fault Refusal
  | 0, s => .next s
  | k + 1, s =>
    match step s with
    | .next t => runSteps k t
    | .fault r => .fault r
    | .refused r => .refused r

/-- A run has ended: no statement is left and the last CMD write has completed (70_reset_and_hazards.md R117). -/
def runEnded (s : State) : Bool := s.pending.isEmpty && s.inflight.isNone

/-- A safe end of a run: no command has failed since reset (70_reset_and_hazards.md R117, 10_state.md R26). -/
def safeEnd (s : State) : Bool := runEnded s && !s.status.errSeen

end Sys2Proof.Machine
end

