-- ==== Sys2Proof/Certificates/Slice0/Obligations.lean ====
section
/-! DEFINITION. The statements for the provers. Each docstring says which rule of spec/ it formalises. Where a clause rests on a
choice of the model, it names the log entry. -/

open Sys2Proof Sys2Proof.Machine

namespace Sys2Proof.Machine

/-- `s` after a command that ended with the error of a code: STATUS changes and nothing else (60_exceptions.md R88). -/
def failedState (code : BitVec 4) (s : State) : State :=
  { s with status := { busy := false, errSeen := true, errCode := code }, inflight := none }

/-- `s` after a command that succeeded, before its own effect (60_exceptions.md R88). -/
def doneState (s : State) : State :=
  { s with status := { busy := false, errSeen := s.status.errSeen, errCode := 0 }, inflight := none }

/-- The value of element i of a buffer at `b`, in arithmetic on the bytes (43_scalar_decoder.md R84, "Per width"). -/
def arithmeticValue (m : Memory) (b i : Nat) : Width → Nat
  | .w4 => if i % 2 = 0 then (m.read (b + i / 2)).toNat % 16 else (m.read (b + i / 2)).toNat / 16
  | .w8 => (m.read (b + i)).toNat
  | .w12 =>
    let t := i / 2 * 3
    let x := (m.read (b + t)).toNat + 256 * (m.read (b + t + 1)).toNat + 65536 * (m.read (b + t + 2)).toNat
    if i % 2 = 0 then x % 4096 else x / 4096
  | .w16 => (m.read (b + 2 * i)).toNat + 256 * (m.read (b + 2 * i + 1)).toNat

/-- The source array of ENC8 in memory (20_memory.md R39). -/
def memSource8 (s : State) : List Elem :=
  (List.range s.n.toNat).map fun k => BitVec.ofNat 16 (s.mem.read (s.src.toNat + k)).toNat

/-- The source array of ENC16 in memory (20_memory.md R39). -/
def memSource16 (s : State) : List Elem :=
  (List.range s.n.toNat).map fun k =>
    BitVec.ofNat 16 ((s.mem.read (s.src.toNat + 2 * k)).toNat + 256 * (s.mem.read (s.src.toNat + 2 * k + 1)).toNat)

/-- The six conditions of `enc_check` (42_encoder.md R80) all pass, for a source of `len` bytes. -/
def EncodeMayRun (w : Width) (len : Nat) (s : State) : Prop :=
  size s.n.toNat w < 2 ^ 32 ∧ size s.n.toNat w ≤ s.buflen.toNat ∧
    (len = 0 ∨ s.src.toNat + len ≤ s.memSize) ∧
    (size s.n.toNat w = 0 ∨ s.buf.toNat + size s.n.toNat w ≤ s.memSize) ∧
    ¬ (0 < len ∧ 0 < size s.n.toNat w ∧ s.src.toNat < s.buf.toNat + size s.n.toNat w ∧
        s.buf.toNat < s.src.toNat + len)

/-- The two decoder checks of an extent both pass (43_scalar_decoder.md R84). -/
def DecodeMayRun (e : Nat) (s : State) : Prop := e ≤ s.buflen.toNat ∧ s.buf.toNat + e ≤ s.memSize

/-- The encoders' error order and outcome (42_encoder.md R80), for an instruction with a source of `len` bytes. -/
def EncoderErrorsInOrder (i : Instr) (w : Width) (len : Nat) (s : State) : Prop :=
  let z := size s.n.toNat w
  (2 ^ 32 ≤ z → exec i s = .next (failedState 3 s)) ∧
  (z < 2 ^ 32 → s.buflen.toNat < z → exec i s = .next (failedState 4 s)) ∧
  (z < 2 ^ 32 → z ≤ s.buflen.toNat → len ≠ 0 → s.memSize < s.src.toNat + len → exec i s = .next (failedState 6 s)) ∧
  (z < 2 ^ 32 → z ≤ s.buflen.toNat → (len = 0 ∨ s.src.toNat + len ≤ s.memSize) → z ≠ 0 →
    s.memSize < s.buf.toNat + z → exec i s = .next (failedState 6 s)) ∧
  (z < 2 ^ 32 → z ≤ s.buflen.toNat → (len = 0 ∨ s.src.toNat + len ≤ s.memSize) →
    (z = 0 ∨ s.buf.toNat + z ≤ s.memSize) → 0 < len → 0 < z → s.src.toNat < s.buf.toNat + z →
    s.buf.toNat < s.src.toNat + len → exec i s = .next (failedState 7 s)) ∧
  (EncodeMayRun w len s → ∃ m, exec i s = .next (doneState (s.withMem m))) ∧
  (s.n = 0 → EncodeMayRun w len s)

/-- The errors that apply to a CMD write of `w`, each with its code, in the order of 60_exceptions.md R97. `width` is the
width of the word's BPK where it names one. -/
def errorsInOrder (w : Word) (s : State) (width : Width) : List (Bool × BitVec 4) :=
  let opc := w.toNat % 256
  let bpk := w.toNat / 256 % 256
  let z := size s.n.toNat width
  let len := if opc = 2 then s.n.toNat else 2 * s.n.toNat
  let index := if opc = 4 then s.idx0.toNat else max s.idx0.toNat (max s.idx1.toNat s.idx2.toNat)
  let e := extent index width
  let isEnc := decide (opc = 2 ∨ opc = 3)
  let isDec := decide (opc = 4 ∨ opc = 5)
  [(decide (65536 ≤ w.toNat), 1),
   (decide (opc = 0 ∨ 5 < opc), 1),
   (decide (bpk ∉ (if opc = 2 then [4, 8] else if opc = 3 then [12, 16] else [4, 8, 12, 16])), 2),
   ((isEnc || decide (opc = 1)) && decide (2 ^ 32 ≤ z), 3),
   (isEnc && decide (s.buflen.toNat < z), 4),
   (isDec && decide (s.buflen.toNat < e), 5),
   (isEnc && decide (0 < len ∧ s.memSize < s.src.toNat + len), 6),
   (isEnc && decide (0 < z ∧ s.memSize < s.buf.toNat + z), 6),
   (isDec && decide (s.memSize < s.buf.toNat + e), 6),
   (isEnc && decide (0 < len ∧ 0 < z ∧ s.src.toNat < s.buf.toNat + z ∧ s.buf.toNat < s.src.toNat + len), 7)]

/-- An access that waits for a command of the host `issuer`: every register access but a STATUS read (10_state.md R30), and
every access of that host itself, whose CMD write has not completed (10_state.md R23, 20_memory.md R47). That a STATUS read
of another width waits is log entry 11. -/
def isWaitingAccess (issuer : Nat) (e : HostEvent) : Prop :=
  (∃ h o b v, e = .regWrite h o b v) ∨ (∃ h w, e = .cmdBegin h w) ∨
    (∃ h o b, e = .regRead h o b ∧ ¬ (o = 0x08 ∧ b = 32)) ∨
    (∃ b, e = .regRead issuer 0x08 b) ∨ (∃ a bs, e = .memWrite (.host issuer) a bs) ∨
    (∃ a, e = .memRead (.host issuer) a)

/-- The bytes of a packed buffer that hold element k, as offsets (40_bitfield_units.md R64 to R68). -/
def elementBytes (k : Nat) : Width → List Nat
  | .w4 => [k / 2]
  | .w8 => [k]
  | .w12 => if k % 2 = 0 then [k / 2 * 3, k / 2 * 3 + 1] else [k / 2 * 3 + 1, k / 2 * 3 + 2]
  | .w16 => [2 * k, 2 * k + 1]

/-- Nobody has raced on the bytes that a decode of index i reads. -/
def IndexUnraced (s : State) (i : Nat) (w : Width) : Prop :=
  ∀ a, s.buf.toNat + off i w ≤ a → a < s.buf.toNat + extent i w → s.raced a = false

/-- The 16 legal words with their commands (30_encoding.md R56). -/
def legalWords : List (Word × Instr) :=
  [(0x00000401, .size 4), (0x00000801, .size 8), (0x00000C01, .size 12), (0x00001001, .size 16),
   (0x00000402, .enc8 4), (0x00000802, .enc8 8), (0x00000C03, .enc16 12), (0x00001003, .enc16 16),
   (0x00000404, .dec 4), (0x00000804, .dec 8), (0x00000C04, .dec 12), (0x00001004, .dec 16),
   (0x00000405, .dec3 4), (0x00000805, .dec3 8), (0x00000C05, .dec3 12), (0x00001005, .dec3 16)]

end Sys2Proof.Machine

/-! ## Encoding -/

/-- 30_encoding.md R56: each tabled word decodes to its command. A sanity statement. -/
def Obligations.TabledWordsDecode : Prop := ∀ p ∈ legalWords, decode p.1 = .ok p.2

/-- 30_encoding.md R54, R55, R61: decoding an encoded command gives it back, at every value of its BPK field. -/
def Obligations.DecodeOfEncodeIsTheCommand : Prop := ∀ i : Instr, decode (encode i) = .ok i

/-- 30_encoding.md R54, R60: each word has at most one meaning, and encoding it again gives the word. -/
def Obligations.EncodeOfDecodedWordIsTheWord : Prop := ∀ (w : Word) (i : Instr), decode w = .ok i → encode i = w

/-- 30_encoding.md R56: the legal words are exactly the 16 tabled ones. -/
def Obligations.LegalWordsAreTheTabledSixteen : Prop :=
  ∀ w : Word, isLegalWord w = true ↔ w ∈ legalWords.map Prod.fst

/-- 60_exceptions.md R90: ILLEGAL_COMMAND is raised exactly by a non-zero reserved field or an OPC outside 1 to 5, before
the width is looked at. -/
def Obligations.IllegalCommandExactly : Prop :=
  (∀ (h : Nat) (w : Word) (s : State), 65536 ≤ w.toNat ∨ w.toNat % 256 = 0 ∨ 5 < w.toNat % 256 →
    execute h w s = .next (failedState 1 (s.withCmd w))) ∧
  (∀ (h : Nat) (w : Word) (s t : State), execute h w s = .next t → t.status.errCode = 1 →
    65536 ≤ w.toNat ∨ w.toNat % 256 = 0 ∨ 5 < w.toNat % 256) ∧
  (∀ (h : Nat) (s : State), execute h 0x00010402 s = .next (failedState 1 (s.withCmd 0x00010402)))

/-- 30_encoding.md R58: INVALID_WIDTH is raised exactly by a BPK outside the command's legal set. -/
def Obligations.InvalidWidthExactly : Prop :=
  (∀ (b : BitVec 8) (s : State), b.toNat ∉ [4, 8, 12, 16] →
    exec (.size b) s = .next (failedState 2 s) ∧ exec (.dec b) s = .next (failedState 2 s) ∧
      exec (.dec3 b) s = .next (failedState 2 s)) ∧
  (∀ (b : BitVec 8) (s : State), b.toNat ∉ [4, 8] → exec (.enc8 b) s = .next (failedState 2 s)) ∧
  (∀ (b : BitVec 8) (s : State), b.toNat ∉ [12, 16] → exec (.enc16 b) s = .next (failedState 2 s)) ∧
  (∀ (i : Instr) (s t : State), exec i s = .next t → t.status.errCode = 2 →
    i.bpk.toNat ∉ (match i.opcode with
      | .size => [4, 8, 12, 16]
      | .enc8 => [4, 8]
      | .enc16 => [12, 16]
      | .dec => [4, 8, 12, 16]
      | .dec3 => [4, 8, 12, 16]))

/-! ## The step and the completion of a command -/

/-- 30_encoding.md R57, 70_reset_and_hazards.md R116: a step that meets a CMD write of a word that decodes to `i` latches
the word, sets BUSY and runs `exec i`, in one step. The event list and the in-flight record are the model's (log entries
4 and 6). -/
def Obligations.StepRunsTheDecodedCommand : Prop :=
  ∀ (h : Nat) (s : State) (w : Word) (i : Instr) (rest : List HostEvent),
    s.inflight = none → s.pending = cmdWrite h w :: rest → decode w = .ok i →
    step s = exec i { s with
      pending := rest
      cmd := w
      status := { s.status with busy := true }
      inflight := some { issuer := h, tag := s.draws, touched := [] } }

/-- The word that `withFetchWord` places is the one the very next step runs, as host 0's CMD write (log entry 4). -/
def Obligations.FetchedWordIsRun : Prop :=
  ∀ (s : State) (nbits w : Nat) (i : Instr), decodeTableWord nbits w = some i →
    step (s.withFetchWord nbits w) = exec i { s with
      cmd := tableWord nbits w
      status := { s.status with busy := true }
      inflight := some { issuer := 0, tag := s.draws, touched := [] } }

/-- 60_exceptions.md R88: every CMD write ends in a completion, which changes STATUS alone; a command that raised an error
has changed STATUS and CMD only. The codes are those of R89. -/
def Obligations.EveryCommandWriteCompletes : Prop :=
  (∀ (h : Nat) (w : Word) (s : State), ∃ t, execute h w s = .next t ∧ t.status.busy = false ∧ t.inflight = none ∧ t.cmd = w ∧
    ((t.status.errCode = 0 ∧ t.status.errSeen = s.status.errSeen) ∨
      (t.status.errCode ≠ 0 ∧ t = failedState t.status.errCode (s.withCmd w)))) ∧
  (∀ (e : ErrorCode) (s : State), complete e s = if e = .none then doneState s else failedState (errorCodeBits e) s) ∧
  [ErrorCode.none, .illegalCommand, .invalidWidth, .sizeOverflow, .bufferTooSmall, .outOfRange, .accessFault,
    .overlap].map errorCodeBits = [0, 1, 2, 3, 4, 5, 6, 7]

/-- 70_reset_and_hazards.md R115 ("no command hangs"), 93_implementation_defined.md ("No behaviour of this hardware is
stuck"): a command answers a next state from every state. -/
def Obligations.EveryCommandAnswersNext : Prop :=
  ∀ (i : Instr) (s : State), ∃ t, exec i s = .next t ∧ t.status.busy = false ∧ t.inflight = none ∧
    t.status.errCode.toNat < 8

/-- 60_exceptions.md R97: a command reports the first error of the order that applies, and 0 when none does. -/
def Obligations.FirstErrorInPriorityOrder : Prop :=
  ∀ (h : Nat) (w : Word) (s t : State) (width : Width),
    (w.toNat / 256 % 256 ∈ [4, 8, 12, 16] → width.bits = w.toNat / 256 % 256) → execute h w s = .next t →
    t.status.errCode = (((errorsInOrder w s width).find? Prod.fst).map Prod.snd).getD 0

/-- What can stop the machine: a memory event outside `[0, MEM_SIZE)` (log entry 7) or a register access of a form that
10_state.md R29 has the model refuse; never a command. That such an access is refused only with no command in flight, since
it first waits like any access that is no STATUS read, is the model's choice (log entry 11). -/
def Obligations.OnlyTheseStepsStop : Prop :=
  (∀ (s : State) (r : Fault), step s = .fault r → r = .noSuchAddress ∧
    ((∃ g a bs rest, s.pending = .memWrite g a bs :: rest ∧ bs ≠ [] ∧ s.memSize < a + bs.length) ∨
      (∃ g a rest, s.pending = .memRead g a :: rest ∧ s.memSize ≤ a))) ∧
  (∀ (s : State) (r : Refusal), step s = .refused r → r = .registerAccessForm ∧ s.inflight = none ∧
    ((∃ h o b v rest, s.pending = .regWrite h o b v :: rest ∧ ¬ (b = 32 ∧ o.val % 4 = 0)) ∨
      (∃ h o b rest, s.pending = .regRead h o b :: rest ∧ ¬ (b = 32 ∧ o.val % 4 = 0))))

/-- 60_exceptions.md R106: with nothing to come and nothing in flight the unit holds its registers. That this is a step to
the same state is the model's choice (log entry 4). -/
def Obligations.IdleUnitHoldsEverything : Prop :=
  ∀ s : State, s.pending = [] → s.inflight = none → step s = .next s

/-! ## SIZE -/

/-- 40_bitfield_units.md R63: the size function and its corner cases. -/
def Obligations.SizeFunctionByItsFormulas : Prop :=
  (∀ n : Nat, size n .w4 = (n + 1) / 2 ∧ size n .w8 = n ∧ size n .w12 = (n + 1) / 2 * 3 ∧ size n .w16 = n * 2) ∧
  (∀ w : Width, size 0 w = 0) ∧ size (2 ^ 32 - 1) .w12 = 6442450944 ∧ size (2 ^ 32 - 1) .w16 = 2 ^ 33 - 2 ∧
  size 5 .w12 = 9

/-- 41_size.md R79: SIZE in full: its result, its two errors, when the size overflows, the corner cases. -/
def Obligations.SizeCommand : Prop :=
  (∀ (b : BitVec 8) (w : Width) (s : State), b.toNat = w.bits → size s.n.toNat w < 2 ^ 32 →
    exec (.size b) s = .next (doneState { s with res0 := BitVec.ofNat 32 (size s.n.toNat w) })) ∧
  (∀ (b : BitVec 8) (w : Width) (s : State), b.toNat = w.bits → 2 ^ 32 ≤ size s.n.toNat w →
    exec (.size b) s = .next (failedState 3 s)) ∧
  (∀ (b : BitVec 8) (s : State), b.toNat ∉ [4, 8, 12, 16] → exec (.size b) s = .next (failedState 2 s)) ∧
  (∀ (w : Width) (n : Nat), n < 2 ^ 32 →
    (2 ^ 32 ≤ size n w ↔ (w = .w16 ∧ 2 ^ 31 ≤ n) ∨ (w = .w12 ∧ 2863311531 ≤ n))) ∧
  (∀ w : Width, size 0 w = 0) ∧
  (size 1 .w4 = 1 ∧ size 1 .w8 = 1 ∧ size 1 .w12 = 3 ∧ size 1 .w16 = 2 ∧ size 5 .w12 = 9)

/-- 60_exceptions.md R92: SIZE and ENC16 raise SIZE_OVERFLOW when the exact size does not fit 32 bits, and ENC8 never
does. -/
def Obligations.SizeOverflowRaisers : Prop :=
  (∀ (b : BitVec 8) (w : Width) (s : State), b.toNat = w.bits → 2 ^ 32 ≤ size s.n.toNat w →
    exec (.size b) s = .next (failedState 3 s) ∧
      ((w = .w12 ∨ w = .w16) → exec (.enc16 b) s = .next (failedState 3 s))) ∧
  (∀ (b : BitVec 8) (s t : State), exec (.enc8 b) s = .next t → t.status.errCode ≠ 3) ∧
  (∀ (i : Instr) (s t : State), exec i s = .next t → t.status.errCode = 3 →
    (i.opcode = .size ∨ i.opcode = .enc16) ∧ ∃ w : Width, i.bpk.toNat = w.bits ∧ 2 ^ 32 ≤ size s.n.toNat w)

/-! ## The datapath -/

/-- 40_bitfield_units.md R64 to R67: the packers, in arithmetic, with the rules' examples. -/
def Obligations.PackersByTheirRules : Prop :=
  (∀ lo hi : Elem, (pack4 lo hi).toNat = lo.toNat % 16 + 16 * (hi.toNat % 16)) ∧
  (∀ v : Elem, v.toNat < 256 → (pack8 v).toNat = v.toNat) ∧
  (∀ a b : Elem, (pack12 a b).map BitVec.toNat =
    [a.toNat % 256, a.toNat / 256 % 16 + 16 * (b.toNat % 16), b.toNat / 16 % 256]) ∧
  (∀ v : Elem, (pack16 v).map BitVec.toNat = [v.toNat % 256, v.toNat / 256]) ∧
  (pack4 0x0A 0x0B = 0xBA ∧ pack4 0xFA 0x3B = 0xBA ∧ pack8 0xC7 = 0xC7 ∧ pack12 0x123 0x456 = [0x23, 0x61, 0x45] ∧
    pack16 0x1234 = [0x34, 0x12])

/-- 40_bitfield_units.md R70 to R73: the unpackers, in arithmetic, with the rules' examples. -/
def Obligations.UnpackersByTheirRules : Prop :=
  (∀ (x : Byte) (i : Nat), (unpack4 x i).toNat = if i % 2 = 0 then x.toNat % 16 else x.toNat / 16) ∧
  (∀ x : Byte, (unpack8 x).toNat = x.toNat) ∧
  (∀ (x y z : Byte) (i : Nat), (unpack12 x y z i).toNat =
    if i % 2 = 0 then (x.toNat + 256 * y.toNat + 65536 * z.toNat) % 4096
    else (x.toNat + 256 * y.toNat + 65536 * z.toNat) / 4096) ∧
  (∀ x y : Byte, (unpack16 x y).toNat = x.toNat + 256 * y.toNat) ∧
  (unpack4 0xDC 2 = 0xC ∧ unpack12 0x23 0x61 0x45 1 = 0x456 ∧ unpack16 0x34 0x12 = 0x1234)

/-- 40_bitfield_units.md R68, 90_conflicts.md C1: the image of an odd count ends in a unit whose unused part is zero. -/
def Obligations.OddTailIsZeroFilled : Prop :=
  ∀ (v : List Elem) (a : Elem), v.length % 2 = 0 →
    image (v ++ [a]) .w4 = image v .w4 ++ [BitVec.ofNat 8 (a.toNat % 16)] ∧
    image (v ++ [a]) .w12 = image v .w12 ++ [BitVec.ofNat 8 (a.toNat % 256), BitVec.ofNat 8 (a.toNat / 256 % 16), 0]

/-- 40_bitfield_units.md R69: no bit of a source value above its low bpk bits affects any byte of the image. -/
def Obligations.TruncationOnly : Prop :=
  ∀ (v v' : List Elem) (w : Width), v.map (fun x => x.toNat % 2 ^ w.bits) = v'.map (fun x => x.toNat % 2 ^ w.bits) →
    image v w = image v' w

/-- 40_bitfield_units.md R74: the locator's table, and that the extent does not fall as the index rises. -/
def Obligations.LocatorTable : Prop :=
  (∀ i : Nat, (off i .w4 = i / 2 ∧ extent i .w4 = i / 2 + 1) ∧ (off i .w8 = i ∧ extent i .w8 = i + 1) ∧
    (off i .w12 = i / 2 * 3 ∧ extent i .w12 = i / 2 * 3 + 3) ∧ (off i .w16 = i * 2 ∧ extent i .w16 = i * 2 + 2)) ∧
  (∀ (i j : Nat) (w : Width), i ≤ j → extent i w ≤ extent j w) ∧
  (∀ (i j k : Nat) (w : Width),
    extent (max (max i j) k) w = max (max (extent i w) (extent j w)) (extent k w)) ∧
  extent 5 .w12 = 9

/-- 40_bitfield_units.md R76: decoding an element of an image gives its source value, truncated. -/
def Obligations.ImageRoundTrip : Prop :=
  ∀ (v : List Elem) (w : Width) (m : Memory) (b i : Nat) (h : i < v.length),
    (w = .w4 ∨ w = .w8 → ∀ x ∈ v, x.toNat < 256) →
    (∀ (j : Nat) (hj : j < (image v w).length), m.read (b + j) = (image v w)[j]) →
    (decodeAt m.read b i w).toNat = v[i].toNat &&& ((1 <<< w.bits) - 1)

/-- 40_bitfield_units.md R77: an image has exactly the size of its count, and covers every index's extent. -/
def Obligations.SizeIsExactAndCovers : Prop :=
  (∀ (v : List Elem) (w : Width), (image v w).length = size v.length w) ∧
  (∀ (n i : Nat) (w : Width), i < n → extent i w ≤ size n w) ∧
  (∀ (n : Nat) (w : Width), 0 < n → extent (n - 1) w = size n w)

/-! ## ENC8 and ENC16 -/

/-- 42_encoder.md R81: ENC8 completes and writes the packed image of its source bytes at BUF, and nothing else. The premise
`Unraced` is the duty of 70_reset_and_hazards.md R112; other agents may have written any other byte meanwhile. -/
def Obligations.Enc8WritesTheImage : Prop :=
  ∀ (b : BitVec 8) (w : Width) (s : State), s.mem.wf = true → Unraced (.enc8 b) s → b.toNat = w.bits →
    (w = .w4 ∨ w = .w8) → EncodeMayRun w s.n.toNat s →
    ∃ m, exec (.enc8 b) s = .next (doneState (s.withMem m)) ∧
      (∀ j, j < size s.n.toNat w → (image (memSource8 s) w)[j]? = some (m.read (s.buf.toNat + j))) ∧
      (∀ a, a < s.buf.toNat ∨ s.buf.toNat + size s.n.toNat w ≤ a → m.read a = s.mem.read a)

/-- 42_encoder.md R82: ENC16 completes and writes the packed image of its little-endian 16-bit source elements at BUF,
and nothing else. The premise `Unraced` is the duty of 70_reset_and_hazards.md R112. -/
def Obligations.Enc16WritesTheImage : Prop :=
  ∀ (b : BitVec 8) (w : Width) (s : State), s.mem.wf = true → Unraced (.enc16 b) s → b.toNat = w.bits →
    (w = .w12 ∨ w = .w16) → EncodeMayRun w (2 * s.n.toNat) s →
    ∃ m, exec (.enc16 b) s = .next (doneState (s.withMem m)) ∧
      (∀ j, j < size s.n.toNat w → (image (memSource16 s) w)[j]? = some (m.read (s.buf.toNat + j))) ∧
      (∀ a, a < s.buf.toNat ∨ s.buf.toNat + size s.n.toNat w ≤ a → m.read a = s.mem.read a)

/-- 42_encoder.md R80: the encoders' checks, in their order, and that n = 0 passes every one. -/
def Obligations.EncoderChecksInOrder : Prop :=
  (∀ (b : BitVec 8) (w : Width) (s : State), b.toNat = w.bits → (w = .w4 ∨ w = .w8) →
    EncoderErrorsInOrder (.enc8 b) w s.n.toNat s) ∧
  (∀ (b : BitVec 8) (w : Width) (s : State), b.toNat = w.bits → (w = .w12 ∨ w = .w16) →
    EncoderErrorsInOrder (.enc16 b) w (2 * s.n.toNat) s)

/-- 42_encoder.md R83: the frame of the encoders. Every register but STATUS is unchanged, every byte outside
`[BUF, BUF + size)` is unchanged, and a failing encode writes no byte. -/
def Obligations.EncoderFrame : Prop :=
  ∀ (i : Instr) (s t : State), i.opcode = .enc8 ∨ i.opcode = .enc16 → exec i s = .next t →
    t = { s with mem := t.mem, status := t.status, inflight := none } ∧
    (t.status.errCode ≠ 0 → t.mem = s.mem) ∧
    (∀ (w : Width) (a : Nat), i.bpk.toNat = w.bits → a < s.buf.toNat ∨ s.buf.toNat + size s.n.toNat w ≤ a →
      t.mem.read a = s.mem.read a)

/-- 42_encoder.md R83, 43_scalar_decoder.md R85, 20_memory.md R43: two memories that agree on the bytes a command reads
give the same registers and the same written bytes, whatever the destination and all other memory held. -/
def Obligations.CommandsDependOnlyOnTheirReadBytes : Prop :=
  ∀ (i : Instr) (s t t' : State) (m : Memory), s.mem.wf = true → m.wf = true →
    (∀ a ∈ readFootprint i s, m.read a = s.mem.read a) → exec i s = .next t → exec i (s.withMem m) = .next t' →
    t'.withMem t.mem = t ∧ ∀ a ∈ writeFootprint i s, t'.mem.read a = t.mem.read a

/-- 20_memory.md R42: how many bytes each successful command reads and writes. The lists of addresses are the model's, and a
byte that two of DEC3's results need counts once for each (log entry 12). -/
def Obligations.AccessCounts : Prop :=
  ∀ (i : Instr) (w : Width) (s t : State), i.bpk.toNat = w.bits → exec i s = .next t → t.status.errCode = 0 →
    (readFootprint i s).length = (match i.opcode with
      | .size => 0
      | .enc8 => s.n.toNat
      | .enc16 => 2 * s.n.toNat
      | .dec => (match w with | .w4 => 1 | .w8 => 1 | .w12 => 3 | .w16 => 2)
      | .dec3 => 3 * (match w with | .w4 => 1 | .w8 => 1 | .w12 => 3 | .w16 => 2)) ∧
    (writeFootprint i s).length = (match i.opcode with
      | .size => 0
      | .enc8 => size s.n.toNat w
      | .enc16 => size s.n.toNat w
      | .dec => 0
      | .dec3 => 0)

/-- The source's headline property on the machine (40_bitfield_units.md R76, 42_encoder.md, 43_scalar_decoder.md): after a
successful encode, a DEC of index k < n at the same width leaves source element k, truncated, in RES0. -/
def Obligations.EncodeThenDecodeGivesTheElement : Prop :=
  (∀ (b : BitVec 8) (w : Width) (s t : State) (k : Nat), s.mem.wf = true → Unraced (.enc8 b) s →
    b.toNat = w.bits → exec (.enc8 b) s = .next t → t.status.errCode = 0 → k < s.n.toNat →
    ∃ u, exec (.dec b) { t with idx0 := BitVec.ofNat 32 k } = .next u ∧ u.status.errCode = 0 ∧
      u.res0.toNat = (s.mem.read (s.src.toNat + k)).toNat % 2 ^ w.bits) ∧
  (∀ (b : BitVec 8) (w : Width) (s t : State) (k : Nat), s.mem.wf = true → Unraced (.enc16 b) s →
    b.toNat = w.bits → exec (.enc16 b) s = .next t → t.status.errCode = 0 → k < s.n.toNat →
    ∃ u, exec (.dec b) { t with idx0 := BitVec.ofNat 32 k } = .next u ∧ u.status.errCode = 0 ∧
      u.res0.toNat = ((s.mem.read (s.src.toNat + 2 * k)).toNat +
        256 * (s.mem.read (s.src.toNat + 2 * k + 1)).toNat) % 2 ^ w.bits)

/-! ## DEC and DEC3 -/

/-- 43_scalar_decoder.md R84: DEC's result at each width, in arithmetic on the bytes, and its three errors. The premise
`Unraced` is the duty of 70_reset_and_hazards.md R112: nobody has written the bytes that DEC reads. -/
def Obligations.DecCommand : Prop :=
  (∀ (b : BitVec 8) (w : Width) (s : State), Unraced (.dec b) s → b.toNat = w.bits →
    DecodeMayRun (extent s.idx0.toNat w) s →
    exec (.dec b) s = .next (doneState { s with
      res0 := BitVec.ofNat 32 (arithmeticValue s.mem s.buf.toNat s.idx0.toNat w) })) ∧
  (∀ (b : BitVec 8) (w : Width) (s : State), b.toNat = w.bits → s.buflen.toNat < extent s.idx0.toNat w →
    exec (.dec b) s = .next (failedState 5 s)) ∧
  (∀ (b : BitVec 8) (w : Width) (s : State), b.toNat = w.bits → extent s.idx0.toNat w ≤ s.buflen.toNat →
    s.memSize < s.buf.toNat + extent s.idx0.toNat w → exec (.dec b) s = .next (failedState 6 s)) ∧
  (∀ (b : BitVec 8) (s : State), b.toNat ∉ [4, 8, 12, 16] → exec (.dec b) s = .next (failedState 2 s)) ∧
  (∀ (m : Memory) (a i : Nat) (w : Width), arithmeticValue m a i w < 2 ^ w.bits)

/-- 44_batch_decoder.md R86: DEC3's results in register order, after one check at the largest index, and its three
errors. The premise `Unraced` is the duty of 70_reset_and_hazards.md R112: nobody has written the bytes that DEC3 reads. -/
def Obligations.Dec3Command : Prop :=
  (∀ (b : BitVec 8) (w : Width) (s : State), Unraced (.dec3 b) s → b.toNat = w.bits →
    DecodeMayRun (extent (max s.idx0.toNat (max s.idx1.toNat s.idx2.toNat)) w) s →
    exec (.dec3 b) s = .next (doneState { s with
      res0 := BitVec.ofNat 32 (arithmeticValue s.mem s.buf.toNat s.idx0.toNat w)
      res1 := BitVec.ofNat 32 (arithmeticValue s.mem s.buf.toNat s.idx1.toNat w)
      res2 := BitVec.ofNat 32 (arithmeticValue s.mem s.buf.toNat s.idx2.toNat w) })) ∧
  (∀ (b : BitVec 8) (w : Width) (s : State), b.toNat = w.bits →
    s.buflen.toNat < extent (max s.idx0.toNat (max s.idx1.toNat s.idx2.toNat)) w →
    exec (.dec3 b) s = .next (failedState 5 s)) ∧
  (∀ (b : BitVec 8) (w : Width) (s : State), b.toNat = w.bits →
    extent (max s.idx0.toNat (max s.idx1.toNat s.idx2.toNat)) w ≤ s.buflen.toNat →
    s.memSize < s.buf.toNat + extent (max s.idx0.toNat (max s.idx1.toNat s.idx2.toNat)) w →
    exec (.dec3 b) s = .next (failedState 6 s)) ∧
  (∀ (b : BitVec 8) (s : State), b.toNat ∉ [4, 8, 12, 16] → exec (.dec3 b) s = .next (failedState 2 s))

/-- 44_batch_decoder.md R87: DEC3 against three DEC commands on the same memory: the same values when all pass,
OUT_OF_RANGE exactly when one of the three would raise it, ACCESS_FAULT exactly when none would and one would raise
that. The premise `Unraced` is the duty of 70_reset_and_hazards.md R112. -/
def Obligations.BatchEqualsThreeScalarDecodes : Prop :=
  ∀ (b : BitVec 8) (w : Width) (s t t1 t2 t3 : State), Unraced (.dec3 b) s → b.toNat = w.bits →
    exec (.dec3 b) s = .next t → exec (.dec b) s = .next t1 →
    exec (.dec b) { s with idx0 := s.idx1 } = .next t2 → exec (.dec b) { s with idx0 := s.idx2 } = .next t3 →
    (t.status.errCode = 0 ↔ t1.status.errCode = 0 ∧ t2.status.errCode = 0 ∧ t3.status.errCode = 0) ∧
    (t.status.errCode = 0 → t.res0 = t1.res0 ∧ t.res1 = t2.res0 ∧ t.res2 = t3.res0) ∧
    (t.status.errCode = 5 ↔ t1.status.errCode = 5 ∨ t2.status.errCode = 5 ∨ t3.status.errCode = 5) ∧
    (t.status.errCode = 6 ↔
      (t1.status.errCode ≠ 5 ∧ t2.status.errCode ≠ 5 ∧ t3.status.errCode ≠ 5) ∧
        (t1.status.errCode = 6 ∨ t2.status.errCode = 6 ∨ t3.status.errCode = 6))

/-- 10_state.md R28, 43_scalar_decoder.md R85, 41_size.md R79: the frame of the commands that store nothing. Memory is
unchanged, DEC and SIZE leave RES1 and RES2, and a failing command leaves every RES register. -/
def Obligations.ResultCommandsFrame : Prop :=
  ∀ (i : Instr) (s t : State), i.opcode = .size ∨ i.opcode = .dec ∨ i.opcode = .dec3 → exec i s = .next t →
    t = { s with res0 := t.res0, res1 := t.res1, res2 := t.res2, status := t.status, inflight := none } ∧
    (i.opcode ≠ .dec3 → t.res1 = s.res1 ∧ t.res2 = s.res2) ∧
    (t.status.errCode ≠ 0 → t.res0 = s.res0 ∧ t.res1 = s.res1 ∧ t.res2 = s.res2)

/-- 10_state.md R28, 20_memory.md R49: a decoded value fits its width and the bits above are 0, even when another agent
has written the bytes meanwhile, where the value is free (log entry 6). -/
def Obligations.DecodedValuesFitTheirWidth : Prop :=
  ∀ (b : BitVec 8) (w : Width) (s t : State), b.toNat = w.bits →
    (exec (.dec b) s = .next t → t.status.errCode = 0 → t.res0.toNat < 2 ^ w.bits) ∧
    (exec (.dec3 b) s = .next t → t.status.errCode = 0 →
      t.res0.toNat < 2 ^ w.bits ∧ t.res1.toNat < 2 ^ w.bits ∧ t.res2.toNat < 2 ^ w.bits)

/-! ## Whole-machine rules -/

/-- 10_state.md R26: every completion with an error sets ERRSEEN, of a whole CMD write and of a command that completes in
flight; only reset clears it; nothing else touches it or ERRCODE; and a run without a reset that ends with ERRSEEN = 0 had
it 0 at its start, and every command it completed succeeded. -/
def Obligations.ErrSeenIsSticky : Prop :=
  (∀ (h : Nat) (w : Word) (s t : State), execute h w s = .next t → t.status.errCode ≠ 0 → t.status.errSeen = true) ∧
  (∀ s t : State, runStarted s = .next t → t.status.errCode ≠ 0 → t.status.errSeen = true) ∧
  (∀ s t : State, s.completesCommand = true → step s = .next t → t.status.errCode ≠ 0 → t.status.errSeen = true) ∧
  (∀ s t : State, s.completesCommand = false → step s = .next t →
    (t.status.errSeen = s.status.errSeen ∧ t.status.errCode = s.status.errCode) ∨ ∃ rest, s.pending = .reset :: rest) ∧
  (∀ s t : State, step s = .next t → s.status.errSeen = true → t.status.errSeen = false →
    ∃ rest, s.pending = .reset :: rest) ∧
  (∀ (s t : State) (rest : List HostEvent), s.pending = .reset :: rest → step s = .next t → t.status.errSeen = false) ∧
  (∀ (k : Nat) (s t : State), (∀ e ∈ s.pending, e ≠ .reset) → runSteps k s = .next t → t.status.errSeen = false →
    s.status.errSeen = false ∧ ∀ (j : Nat) (u v : State), j < k → runSteps j s = .next u → u.completesCommand = true →
      step u = .next v → v.status.errCode = 0)

/-- 10_state.md R28: a RES register changes only by reset, or in a step that completes a SIZE, DEC or DEC3 with success. -/
def Obligations.OnlyResultsChangeRes : Prop :=
  ∀ s t : State, step s = .next t → (t.res0 ≠ s.res0 ∨ t.res1 ≠ s.res1 ∨ t.res2 ≠ s.res2) →
    (∃ rest, s.pending = .reset :: rest) ∨
    (s.completesCommand = true ∧ t.status.errCode = 0 ∧ t.inflight = none ∧
      ∃ i, decode t.cmd = .ok i ∧ (i.opcode = .size ∨ i.opcode = .dec ∨ i.opcode = .dec3))

/-- 42_encoder.md R83, 20_memory.md R36, 70_reset_and_hazards.md R107, R108: data memory changes only in a step
that serves a memory write, that completes an encode with success, or that is a reset cutting an encode short; MEM_SIZE
never changes. -/
def Obligations.OnlyTheseStepsChangeMemory : Prop :=
  ∀ s t : State, step s = .next t → t.memSize = s.memSize ∧
    (t.mem ≠ s.mem →
      (s.completesCommand = false ∧ ∃ g a bs rest, s.pending = .memWrite g a bs :: rest) ∨
      (s.inflight.isSome = true ∧ ∃ rest i, s.pending = .reset :: rest ∧ decode s.cmd = .ok i ∧
        (i.opcode = .enc8 ∨ i.opcode = .enc16)) ∨
      (s.completesCommand = true ∧ t.status.errCode = 0 ∧ t.inflight = none ∧
        ∃ i, decode t.cmd = .ok i ∧ (i.opcode = .enc8 ∨ i.opcode = .enc16)))

/-- 10_state.md R32: "No command reads STATUS": from two states that differ in STATUS alone a command leaves states that
differ in ERRSEEN alone. -/
def Obligations.NoCommandReadsStatus : Prop :=
  ∀ (i : Instr) (s t : State) (st : Status), exec i s = .next t →
    ∃ t', exec i (s.withStatus st) = .next t' ∧ t'.withStatus t.status = t ∧
      t'.status.errCode = t.status.errCode ∧ t'.status.busy = t.status.busy

/-- 30_encoding.md R56 ("other operands"), 70_reset_and_hazards.md R109: registers a command does not read may hold
anything. -/
def Obligations.UnreadRegistersDoNotMatter : Prop :=
  (∀ (b : BitVec 8) (s t : State) (x1 x2 x3 x4 x5 x6 : Word), exec (.size b) s = .next t →
    exec (.size b) { s with src := x1, buf := x2, buflen := x3, idx0 := x4, idx1 := x5, idx2 := x6 } =
      .next { t with src := x1, buf := x2, buflen := x3, idx0 := x4, idx1 := x5, idx2 := x6 }) ∧
  (∀ (i : Instr) (s t : State) (x1 x2 x3 : Word), i.opcode = .enc8 ∨ i.opcode = .enc16 → exec i s = .next t →
    exec i { s with idx0 := x1, idx1 := x2, idx2 := x3 } = .next { t with idx0 := x1, idx1 := x2, idx2 := x3 }) ∧
  (∀ (b : BitVec 8) (s t : State) (x1 x2 x3 x4 : Word), exec (.dec b) s = .next t →
    exec (.dec b) { s with n := x1, src := x2, idx1 := x3, idx2 := x4 } =
      .next { t with n := x1, src := x2, idx1 := x3, idx2 := x4 }) ∧
  (∀ (b : BitVec 8) (s t : State) (x1 x2 : Word), exec (.dec3 b) s = .next t →
    exec (.dec3 b) { s with n := x1, src := x2 } = .next { t with n := x1, src := x2 })

/-! ## Registers and the register window -/

/-- 10_state.md R24: where STATUS holds its fields, that its other bits are 0, that host writes are ignored, and its reset
value. -/
def Obligations.StatusRegisterLayout : Prop :=
  (∀ st : Status, st.word.toNat = (if st.busy then 1 else 0) + (if st.errSeen then 2 else 0) + 256 * st.errCode.toNat) ∧
  (∀ (h : Nat) (s : State) (v : Word) (rest : List HostEvent), s.inflight = none →
    s.pending = .regWrite h 0x08 32 v :: rest →
    step s = .next (s.withPending rest)) ∧
  windowRead 0x08 State.reset = 0

/-- 10_state.md R22: ID always reads 0x42504B07, writes to it are ignored, and reset leaves it. -/
def Obligations.IdIsConstant : Prop :=
  (∀ (h : Nat) (s : State) (rest : List HostEvent), s.inflight = none → s.pending = .regRead h 0x00 32 :: rest →
    step s = .next { s with pending := rest, lastRead := some 0x42504B07 }) ∧
  (∀ (h : Nat) (s : State) (v : Word) (rest : List HostEvent), s.inflight = none →
    s.pending = .regWrite h 0x00 32 v :: rest →
    step s = .next (s.withPending rest)) ∧
  (∀ s : State, windowRead 0x00 (applyReset s) = 0x42504B07)

/-- 10_state.md R29: the register access rules, between commands. -/
def Obligations.RegisterAccessRules : Prop :=
  ∀ (h : Nat) (s : State) (rest : List HostEvent), s.inflight = none →
    (∀ o b v, s.pending = .regWrite h o b v :: rest → ¬ (b = 32 ∧ o.val % 4 = 0) →
      step s = .refused .registerAccessForm) ∧
    (∀ o b, s.pending = .regRead h o b :: rest → ¬ (b = 32 ∧ o.val % 4 = 0) → step s = .refused .registerAccessForm) ∧
    (∀ o v, s.pending = .regWrite h o 32 v :: rest →
      o.val ∈ [0x00, 0x08, 0x28, 0x2C, 0x30, 0x34, 0x38, 0x3C] → step s = .next (s.withPending rest)) ∧
    (∀ o v, s.pending = .regWrite h o 32 v :: rest → o.val ∈ [0x0C, 0x10, 0x14, 0x18, 0x1C, 0x20, 0x24] →
      ∃ t, step s = .next t ∧ windowRead o t = v ∧ (∀ o', o' ≠ o → windowRead o' t = windowRead o' s) ∧
        t.mem = s.mem ∧ t.pending = rest ∧ t.inflight = none) ∧
    (∀ o, s.pending = .regRead h o 32 :: rest → o.val % 4 = 0 →
      step s = .next { s with pending := rest, lastRead := some (windowRead o s) }) ∧
    (∀ o : Fin 64, o.val ∈ [0x34, 0x38, 0x3C] → windowRead o s = 0)

/-- 10_state.md R17: the register at each offset of the window. -/
def Obligations.RegisterMap : Prop :=
  ∀ s : State, windowRead 0x04 s = s.cmd ∧ windowRead 0x08 s = s.status.word ∧ windowRead 0x0C s = s.n ∧
    windowRead 0x10 s = s.src ∧ windowRead 0x14 s = s.buf ∧ windowRead 0x18 s = s.buflen ∧
    windowRead 0x1C s = s.idx0 ∧ windowRead 0x20 s = s.idx1 ∧ windowRead 0x24 s = s.idx2 ∧
    windowRead 0x28 s = s.res0 ∧ windowRead 0x2C s = s.res1 ∧ windowRead 0x30 s = s.res2

/-- 10_state.md R17, 00_scope.md R7: the window is the 64 host addresses from `REG_BASE`, a multiple of 64. -/
def Obligations.WindowIsSixtyFourAddresses : Prop :=
  Config.regBase % 64 = 0 ∧
  (∀ o : Fin 64, windowOffset (Config.regBase + o.val) = some o) ∧
  (∀ a : Nat, a < Config.regBase ∨ Config.regBase + 64 ≤ a → windowOffset a = none)

/-- 30_encoding.md R62: each pseudo-instruction is the statements of its expansion, in order. -/
def Obligations.PseudoInstructionExpansions : Prop :=
  (∀ h b n, Stmt.events h (.sizen b n) = [Stmt.wr .n n, .instr (.size b)].flatMap (Stmt.events h)) ∧
  (∀ h b src n buf len, Stmt.events h (.enc8a b src n buf len) =
    [Stmt.wr .src src, .wr .n n, .wr .buf buf, .wr .buflen len, .instr (.enc8 b)].flatMap (Stmt.events h)) ∧
  (∀ h b src n buf len, Stmt.events h (.enc16a b src n buf len) =
    [Stmt.wr .src src, .wr .n n, .wr .buf buf, .wr .buflen len, .instr (.enc16 b)].flatMap (Stmt.events h)) ∧
  (∀ h b buf len i, Stmt.events h (.deci b buf len i) =
    [Stmt.wr .buf buf, .wr .buflen len, .wr .idx0 i, .instr (.dec b)].flatMap (Stmt.events h)) ∧
  (∀ h b buf len i1 i2 i3, Stmt.events h (.dec3i b buf len i1 i2 i3) =
    [Stmt.wr .buf buf, .wr .buflen len, .wr .idx0 i1, .wr .idx1 i2, .wr .idx2 i3, .instr (.dec3 b)].flatMap (Stmt.events h))

/-! ## In-flight commands -/

/-- 10_state.md R30: while a command runs every register access but a STATUS read waits until it has completed, a STATUS
read of another host is served at once and shows BUSY = 1, and no operand or result register changes while the command
runs. That the command completes in the very step that meets the waiting access, and that a STATUS read of another width
waits, is the model's choice (log entry 11). -/
def Obligations.RegisterAccessesWaitForTheCommand : Prop :=
  ∀ (s : State) (f : InFlight), s.inflight = some f →
    (∀ (e : HostEvent) (rest : List HostEvent), s.pending = e :: rest → isWaitingAccess f.issuer e →
      ∃ t, step s = .next t ∧ t.pending = s.pending ∧ t.inflight = none ∧ t.status.busy = false) ∧
    (∀ h rest, s.pending = .regRead h 0x08 32 :: rest → h ≠ f.issuer → s.status.busy = true →
      ∃ v : Word, step s = .next { s with pending := rest, lastRead := some v } ∧ v.getLsbD 0 = true) ∧
    (∀ t, step s = .next t → t.inflight.isSome = true →
      (t.n, t.src, t.buf, t.buflen, t.idx0, t.idx1, t.idx2) = (s.n, s.src, s.buf, s.buflen, s.idx0, s.idx1, s.idx2) ∧
        (t.res0, t.res1, t.res2) = (s.res0, s.res1, s.res2))

/-- 20_memory.md R47, 10_state.md R25: an access of the issuing host that follows its CMD write finds the command completed.
Its memory read sees every byte the command wrote, and its STATUS read shows BUSY = 0. That a command in flight completes in
the very step that meets the access is the model's choice (log entry 11). -/
def Obligations.IssuingHostSeesItsCommandCompleted : Prop :=
  (∀ (s : State) (f : InFlight) (a : Nat) (rest : List HostEvent), s.inflight = some f →
    s.pending = .memRead (.host f.issuer) a :: rest → a < s.memSize →
    ∃ u, runStarted s = .next u ∧
      runSteps 2 s = .next { u with pending := rest, lastRead := some ((u.mem.read a).setWidth 32) }) ∧
  (∀ (s : State) (f : InFlight) (rest : List HostEvent), s.inflight = some f →
    s.pending = .regRead f.issuer 0x08 32 :: rest →
    ∃ u v, runStarted s = .next u ∧ runSteps 2 s = .next { u with pending := rest, lastRead := some v } ∧
      v.getLsbD 0 = false) ∧
  (∀ (h : Nat) (w : Word) (s : State) (a : Nat) (rest : List HostEvent), s.inflight = none →
    s.pending = cmdWrite h w :: .memRead (.host h) a :: rest → a < s.memSize →
    ∃ u, execute h w (s.withPending (.memRead (.host h) a :: rest)) = .next u ∧
      runSteps 2 s = .next { u with pending := rest, lastRead := some ((u.mem.read a).setWidth 32) })

/-- 20_memory.md R48, 70_reset_and_hazards.md R116: a legal command that begins, and then completes with nobody disturbing
it, ends as the one atomic step of a CMD write does. That it completes at the next waiting access is the model's choice (log
entry 11). -/
def Obligations.BeginThenCompleteIsOneStep : Prop :=
  ∀ (h : Nat) (s : State) (w : Word) (rest : List HostEvent), s.inflight = none → s.pending = .cmdBegin h w :: rest →
    isLegalWord w = true → (∀ e ∈ rest.head?, isWaitingAccess h e) →
    ∃ u, step s = .next u ∧ u.inflight.isSome = true ∧ u.status.busy = true ∧
      step u = step (s.withPending (cmdWrite h w :: rest))

/-- 10_state.md R23: an illegal word or width never stays in flight; it completes at once. -/
def Obligations.IllegalWordCompletesAtOnce : Prop :=
  ∀ (h : Nat) (s : State) (w : Word) (rest : List HostEvent), s.inflight = none → s.pending = .cmdBegin h w :: rest →
    isLegalWord w = false → ∃ t, step s = .next t ∧ t.inflight = none ∧ t.status.busy = false ∧ t.cmd = w ∧
      (t.status.errCode = 1 ∨ t.status.errCode = 2)

/-- 20_memory.md R49: a byte another agent reads while a command runs is the old value or the one the command leaves.
Which of the two is free (log entry 6); that the new byte is the one as of the read is the model's choice (log entry 14). -/
def Obligations.RacedReadIsOldOrNew : Prop :=
  ∀ (s : State) (f : InFlight) (g : Agent) (a : Nat) (rest : List HostEvent), s.mem.wf = true → s.inflight = some f →
    g ≠ .host f.issuer → s.pending = .memRead g a :: rest → a < s.memSize →
    ∃ v : Byte, step s = .next { s with pending := rest, lastRead := some (v.setWidth 32), draws := s.draws + 1 } ∧
      (v = s.mem.read a ∨ ∃ u, runStarted s = .next u ∧ v = u.mem.read a)

/-- 20_memory.md R49: another agent's byte writes while a command runs are performed at once, change no register and leave
the command in flight, which records their addresses (the record and the draw counter are the model's, log entry 6). -/
def Obligations.AgentWriteDuringACommand : Prop :=
  ∀ (s : State) (f : InFlight) (g : Agent) (a : Nat) (bs : List Byte) (rest : List HostEvent), s.mem.wf = true →
    s.inflight = some f → g ≠ .host f.issuer → s.pending = .memWrite g a bs :: rest → a + bs.length ≤ s.memSize →
    ∃ (m : Memory) (touched : List Nat),
      step s = .next { s with
        pending := rest
        mem := m
        inflight := some { f with touched := touched }
        draws := s.draws + 1 } ∧
      (∀ j, j < bs.length → bs[j]? = some (m.read (a + j))) ∧
      (∀ x, x < a ∨ a + bs.length ≤ x → m.read x = s.mem.read x) ∧
      (∀ x, x ∈ touched ↔ x ∈ f.touched ∨ (a ≤ x ∧ x < a + bs.length))

/-- 20_memory.md R48, R49: a result of DEC3 whose own bytes nobody has written meanwhile is exact, whatever happened to the
bytes of the others. -/
def Obligations.UnracedResultsOfDec3AreExact : Prop :=
  ∀ (b : BitVec 8) (w : Width) (s : State), b.toNat = w.bits →
    DecodeMayRun (extent (max s.idx0.toNat (max s.idx1.toNat s.idx2.toNat)) w) s →
    ∃ t, exec (.dec3 b) s = .next t ∧ t.status.errCode = 0 ∧
      (IndexUnraced s s.idx0.toNat w →
        t.res0 = BitVec.ofNat 32 (arithmeticValue s.mem s.buf.toNat s.idx0.toNat w)) ∧
      (IndexUnraced s s.idx1.toNat w →
        t.res1 = BitVec.ofNat 32 (arithmeticValue s.mem s.buf.toNat s.idx1.toNat w)) ∧
      (IndexUnraced s s.idx2.toNat w →
        t.res2 = BitVec.ofNat 32 (arithmeticValue s.mem s.buf.toNat s.idx2.toNat w))

/-- 20_memory.md R48, R49: an element that an encode packs from source bytes, and into destination bytes, that nobody has
written meanwhile is exact, whatever happened to the bytes of the others. -/
def Obligations.UnracedElementsOfEncodesAreExact : Prop :=
  (∀ (b : BitVec 8) (w : Width) (s : State), s.mem.wf = true → b.toNat = w.bits → (w = .w4 ∨ w = .w8) →
    EncodeMayRun w s.n.toNat s →
    ∃ t, exec (.enc8 b) s = .next t ∧ t.status.errCode = 0 ∧
      ∀ k, k < s.n.toNat → s.raced (s.src.toNat + k) = false →
        (∀ o ∈ elementBytes k w, s.raced (s.buf.toNat + o) = false) →
        arithmeticValue t.mem s.buf.toNat k w = (s.mem.read (s.src.toNat + k)).toNat % 2 ^ w.bits) ∧
  (∀ (b : BitVec 8) (w : Width) (s : State), s.mem.wf = true → b.toNat = w.bits → (w = .w12 ∨ w = .w16) →
    EncodeMayRun w (2 * s.n.toNat) s →
    ∃ t, exec (.enc16 b) s = .next t ∧ t.status.errCode = 0 ∧
      ∀ k, k < s.n.toNat → s.raced (s.src.toNat + 2 * k) = false → s.raced (s.src.toNat + 2 * k + 1) = false →
        (∀ o ∈ elementBytes k w, s.raced (s.buf.toNat + o) = false) →
        arithmeticValue t.mem s.buf.toNat k w = ((s.mem.read (s.src.toNat + 2 * k)).toNat +
          256 * (s.mem.read (s.src.toNat + 2 * k + 1)).toNat) % 2 ^ w.bits)

/-- 20_memory.md R46, R47: between commands byte writes land where they are sent and nowhere else, and a byte read returns
what memory holds (for an agent other than the host, log entry 9). -/
def Obligations.HostMemoryAccesses : Prop :=
  (∀ (g : Agent) (s : State) (a : Nat) (bs : List Byte) (rest : List HostEvent), s.mem.wf = true → s.inflight = none →
    s.pending = .memWrite g a bs :: rest → a + bs.length ≤ s.memSize →
    ∃ m, step s = .next { s with pending := rest, mem := m } ∧
      (∀ j, j < bs.length → bs[j]? = some (m.read (a + j))) ∧
      (∀ x, x < a ∨ a + bs.length ≤ x → m.read x = s.mem.read x)) ∧
  (∀ (g : Agent) (s : State) (a : Nat) (rest : List HostEvent), s.inflight = none → s.pending = .memRead g a :: rest →
    a < s.memSize → step s = .next { s with pending := rest, lastRead := some ((s.mem.read a).setWidth 32) })

/-! ## Reset and the invariant -/

/-- 70_reset_and_hazards.md R107: every register reads its reset value, no command is in flight, and reset leaves data
memory alone. -/
def Obligations.ResetValues : Prop :=
  (∀ r : RegName, readReg r State.reset = if r = .id then 0x42504B07 else 0) ∧ State.reset.inflight = none ∧
  (∀ (s : State) (rest : List HostEvent), s.inflight = none → s.pending = .reset :: rest →
    ∃ t, step s = .next t ∧ (∀ r : RegName, readReg r t = readReg r State.reset) ∧ t.inflight = none ∧ t.mem = s.mem)

/-- 70_reset_and_hazards.md R108: a reset that meets a command in flight abandons it: the registers are reset, and each
byte holds its old value or the one the command would have written, the latter inside an encode's destination range
only. Which is free (log entry 8). -/
def Obligations.ResetDuringACommand : Prop :=
  ∀ (s : State) (f : InFlight) (rest : List HostEvent), s.mem.wf = true → s.inflight = some f →
    s.pending = .reset :: rest →
    ∃ t, step s = .next t ∧ (∀ r : RegName, readReg r t = readReg r State.reset) ∧ t.inflight = none ∧
      t.pending = rest ∧
      (∀ a, t.mem.read a = s.mem.read a ∨ ∃ u, runStarted s = .next u ∧ t.mem.read a = u.mem.read a) ∧
      (∀ a, t.mem.read a ≠ s.mem.read a → ∃ (i : Instr) (w : Width), decode s.cmd = .ok i ∧
        (i.opcode = .enc8 ∨ i.opcode = .enc16) ∧ i.bpk.toNat = w.bits ∧ s.buf.toNat ≤ a ∧
        a < s.buf.toNat + size s.n.toNat w)

/-- The invariant holds at reset (70_reset_and_hazards.md R107; log entries 1 and 2). -/
def Obligations.InvHoldsAtReset : Prop := Inv State.reset

/-- Every step keeps the invariant: canonical memory (the canonical form is the model's, log entry 1) inside
`[0, MEM_SIZE)` (20_memory.md R36), BUSY = 1 exactly while a
command is in flight (10_state.md R25), ERRCODE at most 7 with ERRSEEN set by any error (R26, R27), and only legal
commands in flight (R23). -/
def Obligations.StepKeepsInv : Prop := ∀ s t : State, Inv s → step s = .next t → Inv t

/-- Canonical memories that read alike are equal data (20_memory.md R36; the canonical form is the model's, log
entry 1). -/
def Obligations.CanonicalMemoriesThatReadAlikeAreEqual : Prop :=
  ∀ m m' : Memory, m.wf = true → m'.wf = true → (∀ a, m.read a = m'.read a) → m = m'
end

