-- ==== Sys2Proof/Laws/Memory.lean ====
section
/-! SUPPORT. The laws of data memory: read after write, what a write leaves alone, and that every memory operation keeps
the canonical form and the bound `MEM_SIZE`. -/

namespace Sys2Proof.Machine

/-- A write leaves every other address alone. -/
theorem read_write_other (m : Memory) (a b : Nat) (v : Byte) (h : b ≠ a) : (m.write a v).read b = m.read b := by
  induction m with
  | nil =>
    by_cases hv : v = Config.launchByte
    · simp [Memory.write, hv]
    · simp [Memory.write, hv, Memory.read, h.symm]
  | cons c rest ih =>
    obtain ⟨k, x⟩ := c
    simp only [Memory.write]
    split_ifs with h1 h2 h3 h4
    · rfl
    · simp [Memory.read, h.symm]
    · subst h3; simp [Memory.read, h.symm]
    · subst h3; simp [Memory.read, h.symm]
    · simp [Memory.read, ih]

/-- An address at or below the bound that every listed address exceeds is unlisted. -/
theorem read_of_wfAbove (m : Memory) (k a : Nat) (h : m.wfAbove k = true) (ha : a ≤ k) :
    m.read a = Config.launchByte := by
  induction m generalizing k with
  | nil => rfl
  | cons c rest ih =>
    obtain ⟨j, x⟩ := c
    simp only [Memory.wfAbove, Bool.and_eq_true, decide_eq_true_eq] at h
    have : j ≠ a := by omega
    simpa [Memory.read, this] using ih j h.2 (by omega)

/-- The bound of a canonical tail can be lowered. -/
theorem wfAbove_mono (m : Memory) (j k : Nat) (h : m.wfAbove k = true) (hjk : j ≤ k) : m.wfAbove j = true := by
  cases m with
  | nil => rfl
  | cons c rest =>
    simp only [Memory.wfAbove, Bool.and_eq_true, decide_eq_true_eq] at h ⊢
    exact ⟨⟨by omega, h.1.2⟩, h.2⟩

/-- A canonical memory is canonical above any bound below its first address. -/
theorem wf_of_wfAbove (m : Memory) (k : Nat) (h : m.wfAbove k = true) : m.wf = true := by
  cases m with
  | nil => rfl
  | cons c rest =>
    simp only [Memory.wfAbove, Memory.wf, Bool.and_eq_true, decide_eq_true_eq] at h ⊢
    exact ⟨h.1.2, h.2⟩

/-- A read after a write to the same address gives the value written. -/
theorem read_write_same (m : Memory) (a : Nat) (v : Byte) (h : m.wf = true) : (m.write a v).read a = v := by
  have main : ∀ (m : Memory), m.wf = true → (m.write a v).read a = v := by
    intro m
    induction m with
    | nil =>
      intro _
      by_cases hv : v = Config.launchByte
      · simp [Memory.write, hv, Memory.read]
      · simp [Memory.write, hv, Memory.read]
    | cons c rest ih =>
      intro h
      obtain ⟨k, x⟩ := c
      simp only [Memory.wf, Bool.and_eq_true, decide_eq_true_eq] at h
      simp only [Memory.write]
      split_ifs with h1 h2 h3 h4
      · subst h2
        have : k ≠ a := by omega
        simpa [Memory.read, this] using read_of_wfAbove rest k a h.2 (by omega)
      · simp [Memory.read]
      · subst h3 h4; exact read_of_wfAbove rest a a h.2 le_rfl
      · simp [Memory.read]
      · have : k ≠ a := fun e => h3 e.symm
        simpa [Memory.read, this] using ih (wf_of_wfAbove rest k h.2)
  exact main m h

/-- A write above a bound keeps a memory canonical above that bound. -/
theorem write_wfAbove (m : Memory) (j a : Nat) (v : Byte) (h : m.wfAbove j = true) (ha : j < a) :
    (m.write a v).wfAbove j = true := by
  induction m generalizing j with
  | nil =>
    by_cases hv : v = Config.launchByte
    · simp [Memory.write, hv, Memory.wfAbove]
    · simp [Memory.write, hv, Memory.wfAbove, ha]
  | cons c rest ih =>
    obtain ⟨k, x⟩ := c
    have h' := h
    simp only [Memory.wfAbove, Bool.and_eq_true, decide_eq_true_eq] at h'
    simp only [Memory.write]
    split_ifs with h1 h2 h3 h4
    · exact h
    · simp [Memory.wfAbove, ha, h2, h1, h'.1.2, h'.2]
    · exact wfAbove_mono rest j k h'.2 (by omega)
    · subst h3; simp [Memory.wfAbove, ha, h4, h'.2]
    · simpa [Memory.wfAbove, h'.1.1, h'.1.2] using ih k h'.2 (by omega)

/-- A write keeps the canonical form. -/
theorem write_wf (m : Memory) (a : Nat) (v : Byte) (h : m.wf = true) : (m.write a v).wf = true := by
  cases m with
  | nil =>
    by_cases hv : v = Config.launchByte
    · simp [Memory.write, hv, Memory.wf]
    · simp [Memory.write, hv, Memory.wf, Memory.wfAbove]
  | cons c rest =>
    obtain ⟨k, x⟩ := c
    have h' := h
    simp only [Memory.wf, Bool.and_eq_true, decide_eq_true_eq] at h'
    simp only [Memory.write]
    split_ifs with h1 h2 h3 h4
    · exact h
    · simp [Memory.wf, Memory.wfAbove, h2, h1, h'.1, h'.2]
    · exact wf_of_wfAbove rest k h'.2
    · subst h3; simp [Memory.wf, h4, h'.2]
    · simpa [Memory.wf, h'.1] using write_wfAbove rest k a v h'.2 (by omega)

/-- The bound of a listed cell and of the rest. -/
theorem below_cons (k : Nat) (x : Byte) (rest : Memory) (size : Nat) :
    Memory.below ((k, x) :: rest) size = true ↔ k < size ∧ Memory.below rest size = true := by
  simp [Memory.below]

/-- A write below `MEM_SIZE` keeps every listed address below it. -/
theorem write_below (m : Memory) (size a : Nat) (v : Byte) (h : m.below size = true) (ha : a < size) :
    (m.write a v).below size = true := by
  induction m with
  | nil => by_cases hv : v = Config.launchByte <;> simp [Memory.write, hv, Memory.below, ha]
  | cons c rest ih =>
    obtain ⟨k, x⟩ := c
    rw [below_cons] at h
    simp only [Memory.write]
    split_ifs
    · exact (below_cons ..).2 h
    · exact (below_cons ..).2 ⟨ha, (below_cons ..).2 h⟩
    · exact h.2
    · exact (below_cons ..).2 ⟨ha, h.2⟩
    · exact (below_cons ..).2 ⟨h.1, ih h.2⟩

/-- Writing a list of cells keeps the canonical form. -/
theorem writeCells_wf (cs : List Host.Cell) (m : Memory) (h : m.wf = true) : (m.writeCells cs).wf = true := by
  induction cs generalizing m with
  | nil => exact h
  | cons c rest ih => exact ih _ (write_wf m c.1 c.2 h)

/-- Writing cells below `MEM_SIZE` keeps every listed address below it. -/
theorem writeCells_below (cs : List Host.Cell) (m : Memory) (size : Nat) (h : m.below size = true)
    (hc : ∀ c ∈ cs, c.1 < size) : (m.writeCells cs).below size = true := by
  induction cs generalizing m with
  | nil => exact h
  | cons c rest ih =>
    exact ih _ (write_below m size c.1 c.2 h (hc c (by simp))) fun d hd => hc d (by simp [hd])

/-- Writing a list of cells leaves every address outside it alone. -/
theorem read_writeCells_other (cs : List Host.Cell) (m : Memory) (a : Nat) (h : ∀ c ∈ cs, c.1 ≠ a) :
    (m.writeCells cs).read a = m.read a := by
  induction cs generalizing m with
  | nil => rfl
  | cons c rest ih =>
    rw [Memory.writeCells, ih _ fun d hd => h d (by simp [hd]), read_write_other _ _ _ _ (h c (by simp)).symm]

/-- The addresses of consecutive cells are the consecutive addresses. -/
theorem mem_cellsFrom (bs : List Byte) (a : Nat) (c : Host.Cell) (h : c ∈ cellsFrom a bs) :
    a ≤ c.1 ∧ c.1 < a + bs.length := by
  induction bs generalizing a with
  | nil => simp [cellsFrom] at h
  | cons b rest ih =>
    simp only [cellsFrom, List.mem_cons, List.length_cons] at h ⊢
    rcases h with rfl | h
    · simp
    · have := ih (a + 1) h; omega

/-- Consecutive bytes read back where they were written. -/
theorem read_writeCells_cellsFrom (bs : List Byte) (m : Memory) (a j : Nat) (h : m.wf = true) (hj : j < bs.length) :
    (m.writeCells (cellsFrom a bs)).read (a + j) = bs[j] := by
  induction bs generalizing m a j with
  | nil => simp at hj
  | cons b rest ih =>
    rw [cellsFrom, Memory.writeCells]
    cases j with
    | zero =>
      rw [read_writeCells_other]
      · simpa using read_write_same m a b h
      · intro c hc
        have := mem_cellsFrom rest (a + 1) c hc
        omega
    | succ j =>
      have := ih (m.write a b) (a + 1) j (write_wf m a b h) (by simpa using hj)
      simpa [Nat.add_assoc, Nat.add_comm 1 j] using this

/-- An address outside consecutive bytes is left alone. -/
theorem read_writeCells_cellsFrom_other (bs : List Byte) (m : Memory) (a b : Nat)
    (h : b < a ∨ a + bs.length ≤ b) : (m.writeCells (cellsFrom a bs)).read b = m.read b := by
  refine read_writeCells_other _ _ _ fun c hc => ?_
  have := mem_cellsFrom bs a c hc
  omega

/-- Reset's memory is canonical. -/
theorem reset_mem_wf : State.reset.mem.wf = true := rfl

end Sys2Proof.Machine
end

