-- ==== Sys2Proof/Laws/State.lean ====
section
/-! SUPPORT. What each named update does to each field of the state, so that no proof unfolds an update. -/

namespace Sys2Proof.Machine

section withCmd
variable (s : State) (w : Word)
@[simp] theorem withCmd_cmd : (s.withCmd w).cmd = w := rfl
@[simp] theorem withCmd_status : (s.withCmd w).status = s.status := rfl
@[simp] theorem withCmd_n : (s.withCmd w).n = s.n := rfl
@[simp] theorem withCmd_src : (s.withCmd w).src = s.src := rfl
@[simp] theorem withCmd_buf : (s.withCmd w).buf = s.buf := rfl
@[simp] theorem withCmd_buflen : (s.withCmd w).buflen = s.buflen := rfl
@[simp] theorem withCmd_idx0 : (s.withCmd w).idx0 = s.idx0 := rfl
@[simp] theorem withCmd_idx1 : (s.withCmd w).idx1 = s.idx1 := rfl
@[simp] theorem withCmd_idx2 : (s.withCmd w).idx2 = s.idx2 := rfl
@[simp] theorem withCmd_res0 : (s.withCmd w).res0 = s.res0 := rfl
@[simp] theorem withCmd_res1 : (s.withCmd w).res1 = s.res1 := rfl
@[simp] theorem withCmd_res2 : (s.withCmd w).res2 = s.res2 := rfl
@[simp] theorem withCmd_mem : (s.withCmd w).mem = s.mem := rfl
@[simp] theorem withCmd_memSize : (s.withCmd w).memSize = s.memSize := rfl
@[simp] theorem withCmd_inflight : (s.withCmd w).inflight = s.inflight := rfl
@[simp] theorem withCmd_pending : (s.withCmd w).pending = s.pending := rfl
@[simp] theorem withCmd_lastRead : (s.withCmd w).lastRead = s.lastRead := rfl
@[simp] theorem withCmd_draws : (s.withCmd w).draws = s.draws := rfl
end withCmd

section withStatus
variable (s : State) (st : Status)
@[simp] theorem withStatus_cmd : (s.withStatus st).cmd = s.cmd := rfl
@[simp] theorem withStatus_status : (s.withStatus st).status = st := rfl
@[simp] theorem withStatus_n : (s.withStatus st).n = s.n := rfl
@[simp] theorem withStatus_src : (s.withStatus st).src = s.src := rfl
@[simp] theorem withStatus_buf : (s.withStatus st).buf = s.buf := rfl
@[simp] theorem withStatus_buflen : (s.withStatus st).buflen = s.buflen := rfl
@[simp] theorem withStatus_idx0 : (s.withStatus st).idx0 = s.idx0 := rfl
@[simp] theorem withStatus_idx1 : (s.withStatus st).idx1 = s.idx1 := rfl
@[simp] theorem withStatus_idx2 : (s.withStatus st).idx2 = s.idx2 := rfl
@[simp] theorem withStatus_res0 : (s.withStatus st).res0 = s.res0 := rfl
@[simp] theorem withStatus_res1 : (s.withStatus st).res1 = s.res1 := rfl
@[simp] theorem withStatus_res2 : (s.withStatus st).res2 = s.res2 := rfl
@[simp] theorem withStatus_mem : (s.withStatus st).mem = s.mem := rfl
@[simp] theorem withStatus_memSize : (s.withStatus st).memSize = s.memSize := rfl
@[simp] theorem withStatus_inflight : (s.withStatus st).inflight = s.inflight := rfl
@[simp] theorem withStatus_pending : (s.withStatus st).pending = s.pending := rfl
@[simp] theorem withStatus_lastRead : (s.withStatus st).lastRead = s.lastRead := rfl
@[simp] theorem withStatus_draws : (s.withStatus st).draws = s.draws := rfl
end withStatus

section withRes0
variable (s : State) (v : Word)
@[simp] theorem withRes0_cmd : (s.withRes0 v).cmd = s.cmd := rfl
@[simp] theorem withRes0_status : (s.withRes0 v).status = s.status := rfl
@[simp] theorem withRes0_n : (s.withRes0 v).n = s.n := rfl
@[simp] theorem withRes0_src : (s.withRes0 v).src = s.src := rfl
@[simp] theorem withRes0_buf : (s.withRes0 v).buf = s.buf := rfl
@[simp] theorem withRes0_buflen : (s.withRes0 v).buflen = s.buflen := rfl
@[simp] theorem withRes0_idx0 : (s.withRes0 v).idx0 = s.idx0 := rfl
@[simp] theorem withRes0_idx1 : (s.withRes0 v).idx1 = s.idx1 := rfl
@[simp] theorem withRes0_idx2 : (s.withRes0 v).idx2 = s.idx2 := rfl
@[simp] theorem withRes0_res0 : (s.withRes0 v).res0 = v := rfl
@[simp] theorem withRes0_res1 : (s.withRes0 v).res1 = s.res1 := rfl
@[simp] theorem withRes0_res2 : (s.withRes0 v).res2 = s.res2 := rfl
@[simp] theorem withRes0_mem : (s.withRes0 v).mem = s.mem := rfl
@[simp] theorem withRes0_memSize : (s.withRes0 v).memSize = s.memSize := rfl
@[simp] theorem withRes0_inflight : (s.withRes0 v).inflight = s.inflight := rfl
@[simp] theorem withRes0_pending : (s.withRes0 v).pending = s.pending := rfl
@[simp] theorem withRes0_lastRead : (s.withRes0 v).lastRead = s.lastRead := rfl
@[simp] theorem withRes0_draws : (s.withRes0 v).draws = s.draws := rfl
end withRes0

section withRes
variable (s : State) (a b c : Word)
@[simp] theorem withRes_cmd : (s.withRes a b c).cmd = s.cmd := rfl
@[simp] theorem withRes_status : (s.withRes a b c).status = s.status := rfl
@[simp] theorem withRes_n : (s.withRes a b c).n = s.n := rfl
@[simp] theorem withRes_src : (s.withRes a b c).src = s.src := rfl
@[simp] theorem withRes_buf : (s.withRes a b c).buf = s.buf := rfl
@[simp] theorem withRes_buflen : (s.withRes a b c).buflen = s.buflen := rfl
@[simp] theorem withRes_idx0 : (s.withRes a b c).idx0 = s.idx0 := rfl
@[simp] theorem withRes_idx1 : (s.withRes a b c).idx1 = s.idx1 := rfl
@[simp] theorem withRes_idx2 : (s.withRes a b c).idx2 = s.idx2 := rfl
@[simp] theorem withRes_res0 : (s.withRes a b c).res0 = a := rfl
@[simp] theorem withRes_res1 : (s.withRes a b c).res1 = b := rfl
@[simp] theorem withRes_res2 : (s.withRes a b c).res2 = c := rfl
@[simp] theorem withRes_mem : (s.withRes a b c).mem = s.mem := rfl
@[simp] theorem withRes_memSize : (s.withRes a b c).memSize = s.memSize := rfl
@[simp] theorem withRes_inflight : (s.withRes a b c).inflight = s.inflight := rfl
@[simp] theorem withRes_pending : (s.withRes a b c).pending = s.pending := rfl
@[simp] theorem withRes_lastRead : (s.withRes a b c).lastRead = s.lastRead := rfl
@[simp] theorem withRes_draws : (s.withRes a b c).draws = s.draws := rfl
end withRes

section withMem
variable (s : State) (m : Memory)
@[simp] theorem withMem_cmd : (s.withMem m).cmd = s.cmd := rfl
@[simp] theorem withMem_status : (s.withMem m).status = s.status := rfl
@[simp] theorem withMem_n : (s.withMem m).n = s.n := rfl
@[simp] theorem withMem_src : (s.withMem m).src = s.src := rfl
@[simp] theorem withMem_buf : (s.withMem m).buf = s.buf := rfl
@[simp] theorem withMem_buflen : (s.withMem m).buflen = s.buflen := rfl
@[simp] theorem withMem_idx0 : (s.withMem m).idx0 = s.idx0 := rfl
@[simp] theorem withMem_idx1 : (s.withMem m).idx1 = s.idx1 := rfl
@[simp] theorem withMem_idx2 : (s.withMem m).idx2 = s.idx2 := rfl
@[simp] theorem withMem_res0 : (s.withMem m).res0 = s.res0 := rfl
@[simp] theorem withMem_res1 : (s.withMem m).res1 = s.res1 := rfl
@[simp] theorem withMem_res2 : (s.withMem m).res2 = s.res2 := rfl
@[simp] theorem withMem_mem : (s.withMem m).mem = m := rfl
@[simp] theorem withMem_memSize : (s.withMem m).memSize = s.memSize := rfl
@[simp] theorem withMem_inflight : (s.withMem m).inflight = s.inflight := rfl
@[simp] theorem withMem_pending : (s.withMem m).pending = s.pending := rfl
@[simp] theorem withMem_lastRead : (s.withMem m).lastRead = s.lastRead := rfl
@[simp] theorem withMem_draws : (s.withMem m).draws = s.draws := rfl
end withMem

section withInflight
variable (s : State) (f : Option InFlight)
@[simp] theorem withInflight_cmd : (s.withInflight f).cmd = s.cmd := rfl
@[simp] theorem withInflight_status : (s.withInflight f).status = s.status := rfl
@[simp] theorem withInflight_n : (s.withInflight f).n = s.n := rfl
@[simp] theorem withInflight_src : (s.withInflight f).src = s.src := rfl
@[simp] theorem withInflight_buf : (s.withInflight f).buf = s.buf := rfl
@[simp] theorem withInflight_buflen : (s.withInflight f).buflen = s.buflen := rfl
@[simp] theorem withInflight_idx0 : (s.withInflight f).idx0 = s.idx0 := rfl
@[simp] theorem withInflight_idx1 : (s.withInflight f).idx1 = s.idx1 := rfl
@[simp] theorem withInflight_idx2 : (s.withInflight f).idx2 = s.idx2 := rfl
@[simp] theorem withInflight_res0 : (s.withInflight f).res0 = s.res0 := rfl
@[simp] theorem withInflight_res1 : (s.withInflight f).res1 = s.res1 := rfl
@[simp] theorem withInflight_res2 : (s.withInflight f).res2 = s.res2 := rfl
@[simp] theorem withInflight_mem : (s.withInflight f).mem = s.mem := rfl
@[simp] theorem withInflight_memSize : (s.withInflight f).memSize = s.memSize := rfl
@[simp] theorem withInflight_inflight : (s.withInflight f).inflight = f := rfl
@[simp] theorem withInflight_pending : (s.withInflight f).pending = s.pending := rfl
@[simp] theorem withInflight_lastRead : (s.withInflight f).lastRead = s.lastRead := rfl
@[simp] theorem withInflight_draws : (s.withInflight f).draws = s.draws := rfl
end withInflight

section withPending
variable (s : State) (es : List HostEvent)
@[simp] theorem withPending_cmd : (s.withPending es).cmd = s.cmd := rfl
@[simp] theorem withPending_status : (s.withPending es).status = s.status := rfl
@[simp] theorem withPending_n : (s.withPending es).n = s.n := rfl
@[simp] theorem withPending_src : (s.withPending es).src = s.src := rfl
@[simp] theorem withPending_buf : (s.withPending es).buf = s.buf := rfl
@[simp] theorem withPending_buflen : (s.withPending es).buflen = s.buflen := rfl
@[simp] theorem withPending_idx0 : (s.withPending es).idx0 = s.idx0 := rfl
@[simp] theorem withPending_idx1 : (s.withPending es).idx1 = s.idx1 := rfl
@[simp] theorem withPending_idx2 : (s.withPending es).idx2 = s.idx2 := rfl
@[simp] theorem withPending_res0 : (s.withPending es).res0 = s.res0 := rfl
@[simp] theorem withPending_res1 : (s.withPending es).res1 = s.res1 := rfl
@[simp] theorem withPending_res2 : (s.withPending es).res2 = s.res2 := rfl
@[simp] theorem withPending_mem : (s.withPending es).mem = s.mem := rfl
@[simp] theorem withPending_memSize : (s.withPending es).memSize = s.memSize := rfl
@[simp] theorem withPending_inflight : (s.withPending es).inflight = s.inflight := rfl
@[simp] theorem withPending_pending : (s.withPending es).pending = es := rfl
@[simp] theorem withPending_lastRead : (s.withPending es).lastRead = s.lastRead := rfl
@[simp] theorem withPending_draws : (s.withPending es).draws = s.draws := rfl
end withPending

section withLastRead
variable (s : State) (v : Word)
@[simp] theorem withLastRead_cmd : (s.withLastRead v).cmd = s.cmd := rfl
@[simp] theorem withLastRead_status : (s.withLastRead v).status = s.status := rfl
@[simp] theorem withLastRead_n : (s.withLastRead v).n = s.n := rfl
@[simp] theorem withLastRead_src : (s.withLastRead v).src = s.src := rfl
@[simp] theorem withLastRead_buf : (s.withLastRead v).buf = s.buf := rfl
@[simp] theorem withLastRead_buflen : (s.withLastRead v).buflen = s.buflen := rfl
@[simp] theorem withLastRead_idx0 : (s.withLastRead v).idx0 = s.idx0 := rfl
@[simp] theorem withLastRead_idx1 : (s.withLastRead v).idx1 = s.idx1 := rfl
@[simp] theorem withLastRead_idx2 : (s.withLastRead v).idx2 = s.idx2 := rfl
@[simp] theorem withLastRead_res0 : (s.withLastRead v).res0 = s.res0 := rfl
@[simp] theorem withLastRead_res1 : (s.withLastRead v).res1 = s.res1 := rfl
@[simp] theorem withLastRead_res2 : (s.withLastRead v).res2 = s.res2 := rfl
@[simp] theorem withLastRead_mem : (s.withLastRead v).mem = s.mem := rfl
@[simp] theorem withLastRead_memSize : (s.withLastRead v).memSize = s.memSize := rfl
@[simp] theorem withLastRead_inflight : (s.withLastRead v).inflight = s.inflight := rfl
@[simp] theorem withLastRead_pending : (s.withLastRead v).pending = s.pending := rfl
@[simp] theorem withLastRead_lastRead : (s.withLastRead v).lastRead = some v := rfl
@[simp] theorem withLastRead_draws : (s.withLastRead v).draws = s.draws := rfl
end withLastRead

section withDraws
variable (s : State) (d : Nat)
@[simp] theorem withDraws_cmd : (s.withDraws d).cmd = s.cmd := rfl
@[simp] theorem withDraws_status : (s.withDraws d).status = s.status := rfl
@[simp] theorem withDraws_n : (s.withDraws d).n = s.n := rfl
@[simp] theorem withDraws_src : (s.withDraws d).src = s.src := rfl
@[simp] theorem withDraws_buf : (s.withDraws d).buf = s.buf := rfl
@[simp] theorem withDraws_buflen : (s.withDraws d).buflen = s.buflen := rfl
@[simp] theorem withDraws_idx0 : (s.withDraws d).idx0 = s.idx0 := rfl
@[simp] theorem withDraws_idx1 : (s.withDraws d).idx1 = s.idx1 := rfl
@[simp] theorem withDraws_idx2 : (s.withDraws d).idx2 = s.idx2 := rfl
@[simp] theorem withDraws_res0 : (s.withDraws d).res0 = s.res0 := rfl
@[simp] theorem withDraws_res1 : (s.withDraws d).res1 = s.res1 := rfl
@[simp] theorem withDraws_res2 : (s.withDraws d).res2 = s.res2 := rfl
@[simp] theorem withDraws_mem : (s.withDraws d).mem = s.mem := rfl
@[simp] theorem withDraws_memSize : (s.withDraws d).memSize = s.memSize := rfl
@[simp] theorem withDraws_inflight : (s.withDraws d).inflight = s.inflight := rfl
@[simp] theorem withDraws_pending : (s.withDraws d).pending = s.pending := rfl
@[simp] theorem withDraws_lastRead : (s.withDraws d).lastRead = s.lastRead := rfl
@[simp] theorem withDraws_draws : (s.withDraws d).draws = d := rfl
end withDraws

section complete
variable (e : ErrorCode) (s : State)
@[simp] theorem complete_cmd : (complete e s).cmd = s.cmd := rfl
@[simp] theorem complete_status : (complete e s).status = s.status.completed e := rfl
@[simp] theorem complete_n : (complete e s).n = s.n := rfl
@[simp] theorem complete_src : (complete e s).src = s.src := rfl
@[simp] theorem complete_buf : (complete e s).buf = s.buf := rfl
@[simp] theorem complete_buflen : (complete e s).buflen = s.buflen := rfl
@[simp] theorem complete_idx0 : (complete e s).idx0 = s.idx0 := rfl
@[simp] theorem complete_idx1 : (complete e s).idx1 = s.idx1 := rfl
@[simp] theorem complete_idx2 : (complete e s).idx2 = s.idx2 := rfl
@[simp] theorem complete_res0 : (complete e s).res0 = s.res0 := rfl
@[simp] theorem complete_res1 : (complete e s).res1 = s.res1 := rfl
@[simp] theorem complete_res2 : (complete e s).res2 = s.res2 := rfl
@[simp] theorem complete_mem : (complete e s).mem = s.mem := rfl
@[simp] theorem complete_memSize : (complete e s).memSize = s.memSize := rfl
@[simp] theorem complete_inflight : (complete e s).inflight = none := rfl
@[simp] theorem complete_pending : (complete e s).pending = s.pending := rfl
@[simp] theorem complete_lastRead : (complete e s).lastRead = s.lastRead := rfl
@[simp] theorem complete_draws : (complete e s).draws = s.draws := rfl
end complete

section startCommand
variable (h : Nat) (w : Word) (s : State)
@[simp] theorem startCommand_cmd : (startCommand h w s).cmd = w := rfl
@[simp] theorem startCommand_status : (startCommand h w s).status = s.status.started := rfl
@[simp] theorem startCommand_n : (startCommand h w s).n = s.n := rfl
@[simp] theorem startCommand_src : (startCommand h w s).src = s.src := rfl
@[simp] theorem startCommand_buf : (startCommand h w s).buf = s.buf := rfl
@[simp] theorem startCommand_buflen : (startCommand h w s).buflen = s.buflen := rfl
@[simp] theorem startCommand_idx0 : (startCommand h w s).idx0 = s.idx0 := rfl
@[simp] theorem startCommand_idx1 : (startCommand h w s).idx1 = s.idx1 := rfl
@[simp] theorem startCommand_idx2 : (startCommand h w s).idx2 = s.idx2 := rfl
@[simp] theorem startCommand_res0 : (startCommand h w s).res0 = s.res0 := rfl
@[simp] theorem startCommand_res1 : (startCommand h w s).res1 = s.res1 := rfl
@[simp] theorem startCommand_res2 : (startCommand h w s).res2 = s.res2 := rfl
@[simp] theorem startCommand_mem : (startCommand h w s).mem = s.mem := rfl
@[simp] theorem startCommand_memSize : (startCommand h w s).memSize = s.memSize := rfl
@[simp] theorem startCommand_inflight : (startCommand h w s).inflight = some { issuer := h, tag := s.draws, touched := [] } := rfl
@[simp] theorem startCommand_pending : (startCommand h w s).pending = s.pending := rfl
@[simp] theorem startCommand_lastRead : (startCommand h w s).lastRead = s.lastRead := rfl
@[simp] theorem startCommand_draws : (startCommand h w s).draws = s.draws := rfl
end startCommand

@[simp] theorem started_busy (st : Status) : st.started.busy = true := rfl
@[simp] theorem started_errSeen (st : Status) : st.started.errSeen = st.errSeen := rfl
@[simp] theorem started_errCode (st : Status) : st.started.errCode = st.errCode := rfl
@[simp] theorem completed_busy (st : Status) (e : ErrorCode) : (st.completed e).busy = false := rfl
@[simp] theorem completed_errSeen (st : Status) (e : ErrorCode) :
    (st.completed e).errSeen = (st.errSeen || decide (e ≠ .none)) := rfl
@[simp] theorem completed_errCode (st : Status) (e : ErrorCode) : (st.completed e).errCode = errorCodeBits e := rfl

/-- ERRCODE is 0 exactly after a success (60_exceptions.md R89). -/
theorem errorCodeBits_eq_zero (e : ErrorCode) : errorCodeBits e = 0 ↔ e = .none := by cases e <;> decide

/-- Different outcomes have different codes (60_exceptions.md R89). -/
theorem errorCodeBits_injective (d e : ErrorCode) : errorCodeBits d = errorCodeBits e ↔ d = e := by
  cases d <;> cases e <;> decide

/-- ERRCODE is one of 0 to 7 (10_state.md R27). -/
theorem errorCodeBits_lt (e : ErrorCode) : (errorCodeBits e).toNat < 8 := by cases e <;> decide

end Sys2Proof.Machine
end

