-- ==== Sys2Proof/Laws/Exec.lean ====
section
/-! SUPPORT. What the commands and the operations under them can do, said once: the width check, the race bookkeeping
without a race, the checks of the encoders and decoders, the packed image's length, and the two ways any command
ends. -/

namespace Sys2Proof.Machine

/-- The width of a BPK value, in bits, is that value. -/
theorem widthOf_eq_some (b : BitVec 8) (w : Width) : widthOf b = some w ↔ b.toNat = w.bits := by
  unfold widthOf
  split_ifs <;> cases w <;> simp_all [Width.bits, BitVec.toNat_eq]

/-- The width check passes with width `w` exactly on a BPK of `w` bits that the operation takes. -/
theorem legalWidth_eq_some (o : Opcode) (b : BitVec 8) (w : Width) :
    legalWidth o b = some w ↔ b.toNat = w.bits ∧ takesWidth o w = true := by
  simp [legalWidth, Option.filter_eq_some_iff, widthOf_eq_some]

/-- The width check of the machine passes exactly on the well-formed commands (30_encoding.md R58). -/
theorem legalWidth_isSome (i : Instr) : (legalWidth i.opcode i.bpk).isSome = i.wellFormed := by
  rw [Bool.eq_iff_iff, Option.isSome_iff_exists]
  simp only [legalWidth_eq_some]
  constructor
  · rintro ⟨w, hb, ht⟩
    unfold Instr.wellFormed
    rw [hb]
    revert ht
    cases i.opcode <;> cases w <;> decide
  · intro h
    unfold Instr.wellFormed at h
    generalize i.bpk.toNat = k at h ⊢
    generalize i.opcode = o at h ⊢
    have h' : k = 4 ∧ takesWidth o .w4 ∨ k = 8 ∧ takesWidth o .w8 ∨ k = 12 ∧ takesWidth o .w12 ∨
        k = 16 ∧ takesWidth o .w16 := by
      cases o <;> simpa [legalBpk, takesWidth] using h
    rcases h' with h | h | h | h
    exacts [⟨.w4, h⟩, ⟨.w8, h⟩, ⟨.w12, h⟩, ⟨.w16, h⟩]

/-- The width check fails exactly on the commands that are not well formed. -/
theorem legalWidth_eq_none (i : Instr) : legalWidth i.opcode i.bpk = none ↔ i.wellFormed = false := by
  rw [← legalWidth_isSome, Option.isSome_eq_false_iff, Option.isNone_iff_eq_none]

/-- A command that is not disturbed races with nobody. -/
theorem Undisturbed.raced {s : State} (h : Undisturbed s) (a : Nat) : s.raced a = false := by
  unfold State.raced
  cases hf : s.inflight with
  | none => rfl
  | some f => simp [h f hf]

/-- A command that is not disturbed keeps the duty of 70_reset_and_hazards.md R112. -/
theorem Undisturbed.unraced {s : State} (h : Undisturbed s) (i : Instr) : Unraced i s := fun a _ => h.raced a

/-- A command that starts is not disturbed. -/
theorem undisturbed_startCommand (h : Nat) (w : Word) (s : State) : Undisturbed (startCommand h w s) := by
  intro f hf
  obtain rfl := Option.some.inj hf
  rfl

/-- With nothing in flight nothing is disturbed. -/
theorem undisturbed_of_idle {s : State} (h : s.inflight = none) : Undisturbed s := by
  intro f hf
  simp [h] at hf

/-- A source byte that nobody has written meanwhile gives its element of ENC8 exactly. -/
theorem srcElem8_exact {s : State} {k : Nat} (h : s.raced (s.src.toNat + k) = false) :
    srcElem8 s k = (s.mem.read (s.src.toNat + k)).setWidth 16 := by
  simp [srcElem8, h, State.byteAt]

/-- Two source bytes that nobody has written meanwhile give their element of ENC16 exactly. -/
theorem srcElem16_exact {s : State} {k : Nat} (h0 : s.raced (s.src.toNat + 2 * k) = false)
    (h1 : s.raced (s.src.toNat + 2 * k + 1) = false) :
    srcElem16 s k = le16 (s.mem.read (s.src.toNat + 2 * k)) (s.mem.read (s.src.toNat + 2 * k + 1)) := by
  simp [srcElem16, h0, h1, State.byteAt]

/-- The destination cells are the image's bytes where nobody has written them meanwhile. -/
theorem destCells_exact {s : State} {bs : List Byte} (h : ∀ a, s.buf.toNat ≤ a → a < s.buf.toNat + bs.length →
    s.raced a = false) : destCells s bs = cellsFrom s.buf.toNat bs := by
  unfold destCells
  rw [List.map_congr_left (g := id) fun c hc => ?_, List.map_id]
  have := mem_cellsFrom bs _ c hc
  simp [destCell, h c.1 (by omega) (by omega)]

/-- A decode whose own bytes nobody has written meanwhile finds the value memory holds. -/
theorem decValue_exact {s : State} {i : Nat} {w : Width}
    (h : ∀ a, s.buf.toNat + off i w ≤ a → a < s.buf.toNat + extent i w → s.raced a = false) (slot : Nat) :
    decValue s slot i w = decodeAt s.mem.read s.buf.toNat i w := by
  have hr : decodeRaced s i w = false := by
    simp only [decodeRaced, List.any_eq_false, List.mem_range]
    intro j hj
    simp [h (s.buf.toNat + off i w + j) (by omega) (by unfold extent; omega)]
  have hb : s.byteAt = s.mem.read := funext fun _ => rfl
  simp [decValue, hr, hb]

@[simp] theorem length_sourceOf8 (s : State) : (sourceOf8 s).length = s.n.toNat := by simp [sourceOf8]
@[simp] theorem length_sourceOf16 (s : State) : (sourceOf16 s).length = s.n.toNat := by simp [sourceOf16]
@[simp] theorem length_cellsFrom (a : Nat) (bs : List Byte) : (cellsFrom a bs).length = bs.length := by
  induction bs generalizing a with
  | nil => rfl
  | cons b rest ih => simp [cellsFrom, ih]

theorem length_image4 (v : List Elem) : (image4 v).length = (v.length + 1) / 2 := by
  induction v using image4.induct with
  | case1 => rfl
  | case2 a => simp [image4]
  | case3 a b rest ih => simp only [image4, List.length_cons, ih]; omega

theorem length_image12 (v : List Elem) : (image12 v).length = (v.length + 1) / 2 * 3 := by
  induction v using image12.induct with
  | case1 => rfl
  | case2 a => simp [image12, pack12]
  | case3 a b rest ih => simp only [image12, pack12, List.length_append, List.length_cons, List.length_nil, ih]; omega

theorem length_flatMap_pack16 (v : List Elem) : (v.flatMap pack16).length = v.length * 2 := by
  induction v with
  | nil => rfl
  | cons a rest ih => simp only [List.flatMap_cons, pack16, List.length_append, List.length_cons, List.length_nil, ih]; omega

/-- An encode's image has exactly the size the size function gives (40_bitfield_units.md R77). -/
theorem length_image (v : List Elem) (w : Width) : (image v w).length = size v.length w := by
  cases w with
  | w4 => exact length_image4 v
  | w8 => simp [image, size]
  | w12 => exact length_image12 v
  | w16 => exact length_flatMap_pack16 v

/-- A destination cell keeps its address, whatever its byte. -/
theorem destCell_fst (s : State) (c : Host.Cell) : (destCell s c).1 = c.1 := by
  unfold destCell; split <;> rfl

/-- An encode's cells lie in `[BUF, BUF + length)`. -/
theorem mem_destCells {s : State} {bs : List Byte} {c : Host.Cell} (h : c ∈ destCells s bs) :
    s.buf.toNat ≤ c.1 ∧ c.1 < s.buf.toNat + bs.length := by
  obtain ⟨d, hd, rfl⟩ := List.mem_map.1 h
  rw [destCell_fst]
  exact mem_cellsFrom bs _ d hd

/-- `inMem` by its rule (20_memory.md R37). -/
theorem inMem_eq_true (size b len : Nat) : inMem size b len = true ↔ len = 0 ∨ b + len ≤ size := by simp [inMem]

/-- `inMem` fails on a non-empty range that leaves memory (20_memory.md R37). -/
theorem inMem_eq_false (size b len : Nat) : inMem size b len = false ↔ len ≠ 0 ∧ size < b + len := by
  rw [← Bool.not_eq_true, inMem_eq_true]; omega

/-- The encoders' checks pass exactly when none of the six conditions of 42_encoder.md R80 holds. -/
theorem encCheck_eq_none (w : Width) (len : Nat) (s : State) :
    encCheck w len s = none ↔
      size s.n.toNat w < 2 ^ 32 ∧ size s.n.toNat w ≤ s.buflen.toNat ∧ inMem s.memSize s.src.toNat len = true ∧
        inMem s.memSize s.buf.toNat (size s.n.toNat w) = true ∧
        rangesOverlap s.src.toNat len s.buf.toNat (size s.n.toNat w) = false := by
  simp only [encCheck]
  split_ifs with h1 h2 h3 h4 h5 <;> simp <;> grind

/-- An encoder's check never reports success as an error. -/
theorem encCheck_ne_some_none (w : Width) (len : Nat) (s : State) : encCheck w len s ≠ some .none := by
  simp only [encCheck]
  split_ifs <;> simp

/-- The decoders' check passes exactly when the extent is inside BUFLEN and memory (43_scalar_decoder.md R84). -/
theorem decCheck_eq_none (e : Nat) (s : State) :
    decCheck e s = none ↔ e ≤ s.buflen.toNat ∧ inMem s.memSize s.buf.toNat e = true := by
  unfold decCheck
  split_ifs with h1 h2 <;> simp_all

/-- A decoder's check never reports success as an error. -/
theorem decCheck_ne_some_none (e : Nat) (s : State) : decCheck e s ≠ some .none := by
  unfold decCheck
  split_ifs <;> simp

@[simp] theorem finish_error (s : State) (e : ErrorCode) : finish s (.error e) = .next (complete e s) := rfl
@[simp] theorem finish_ok (s t : State) : finish s (.ok t) = .next (complete .none t) := rfl

/-- SIZE's body: an error, or RES0 holds the size. -/
theorem sizeBody_cases (b : BitVec 8) (s : State) :
    (∃ e, e ≠ .none ∧ sizeBody b s = .error e) ∨
      ∃ w, legalWidth .size b = some w ∧ size s.n.toNat w < 2 ^ 32 ∧
        sizeBody b s = .ok (s.withRes0 (BitVec.ofNat 32 (size s.n.toNat w))) := by
  unfold sizeBody
  cases hw : legalWidth .size b with
  | none => exact .inl ⟨.invalidWidth, by simp, rfl⟩
  | some w =>
    by_cases hz : 2 ^ 32 ≤ size s.n.toNat w
    · exact .inl ⟨.sizeOverflow, by simp, by simp only [hz, if_true]⟩
    · exact .inr ⟨w, rfl, by omega, by simp only [hz, if_false]⟩

/-- What ENC8 writes: an error, or the image's cells with every check passed. -/
theorem enc8Cells_cases (b : BitVec 8) (s : State) :
    (∃ e, e ≠ .none ∧ enc8Cells b s = .error e) ∨
      ∃ w, legalWidth .enc8 b = some w ∧ encCheck w s.n.toNat s = none ∧
        enc8Cells b s = .ok (destCells s (image (sourceOf8 s) w)) := by
  unfold enc8Cells
  cases hw : legalWidth .enc8 b with
  | none => exact .inl ⟨.invalidWidth, by simp, rfl⟩
  | some w =>
    cases hc : encCheck w s.n.toNat s with
    | none => exact .inr ⟨w, rfl, hc, by simp [checkedCells, hc]⟩
    | some e => exact .inl ⟨e, fun h => encCheck_ne_some_none _ _ _ (h ▸ hc), by simp [checkedCells, hc]⟩

/-- What ENC16 writes: an error, or the image's cells with every check passed. -/
theorem enc16Cells_cases (b : BitVec 8) (s : State) :
    (∃ e, e ≠ .none ∧ enc16Cells b s = .error e) ∨
      ∃ w, legalWidth .enc16 b = some w ∧ encCheck w (2 * s.n.toNat) s = none ∧
        enc16Cells b s = .ok (destCells s (image (sourceOf16 s) w)) := by
  unfold enc16Cells
  cases hw : legalWidth .enc16 b with
  | none => exact .inl ⟨.invalidWidth, by simp, rfl⟩
  | some w =>
    cases hc : encCheck w (2 * s.n.toNat) s with
    | none => exact .inr ⟨w, rfl, hc, by simp [checkedCells, hc]⟩
    | some e => exact .inl ⟨e, fun h => encCheck_ne_some_none _ _ _ (h ▸ hc), by simp [checkedCells, hc]⟩

/-- DEC's body: an error, or RES0 holds the decoded value. -/
theorem decBody_cases (b : BitVec 8) (s : State) :
    (∃ e, e ≠ .none ∧ decBody b s = .error e) ∨
      ∃ w, legalWidth .dec b = some w ∧ decCheck (extent s.idx0.toNat w) s = none ∧
        decBody b s = .ok (s.withRes0 (resultWord (decValue s 0 s.idx0.toNat w))) := by
  unfold decBody
  cases hw : legalWidth .dec b with
  | none => exact .inl ⟨.invalidWidth, by simp, rfl⟩
  | some w =>
    cases hc : decCheck (extent s.idx0.toNat w) s with
    | none => exact .inr ⟨w, rfl, hc, by simp [hc]⟩
    | some e => exact .inl ⟨e, fun h => decCheck_ne_some_none _ _ (h ▸ hc), by simp [hc]⟩

/-- DEC3's body: an error, or the three RES registers hold the decoded values. -/
theorem dec3Body_cases (b : BitVec 8) (s : State) :
    (∃ e, e ≠ .none ∧ dec3Body b s = .error e) ∨
      ∃ w, legalWidth .dec3 b = some w ∧ decCheck (extent (maxIndex s) w) s = none ∧
        dec3Body b s = .ok (s.withRes (resultWord (decValue s 0 s.idx0.toNat w))
          (resultWord (decValue s 1 s.idx1.toNat w)) (resultWord (decValue s 2 s.idx2.toNat w))) := by
  unfold dec3Body
  cases hw : legalWidth .dec3 b with
  | none => exact .inl ⟨.invalidWidth, by simp, rfl⟩
  | some w =>
    cases hc : decCheck (extent (maxIndex s) w) s with
    | none => exact .inr ⟨w, rfl, hc, by simp [hc]⟩
    | some e => exact .inl ⟨e, fun h => decCheck_ne_some_none _ _ (h ▸ hc), by simp [hc]⟩

/-- What a successful command has changed before its completion: some RES registers, or cells of memory inside
`[0, MEM_SIZE)`. -/
inductive Effect (s : State) : State → Prop where
  | res0 (v : Word) : Effect s (s.withRes0 v)
  | res (a b c : Word) : Effect s (s.withRes a b c)
  | mem (cs : List Host.Cell) (inside : ∀ c ∈ cs, c.1 < s.memSize) : Effect s (s.withMem (s.mem.writeCells cs))

/-- The cells of a checked encode lie inside memory. -/
theorem destCells_inside {s : State} {w : Width} {len : Nat} {v : List Elem} (hc : encCheck w len s = none)
    (hv : v.length = s.n.toNat) : ∀ c ∈ destCells s (image v w), c.1 < s.memSize := by
  intro c hm
  have h1 := mem_destCells hm
  have h2 := ((encCheck_eq_none w len s).1 hc).2.2.2.1
  rw [inMem_eq_true] at h2
  rw [length_image, hv] at h1
  omega

/-- Every command answers a next state: the completion of an error with no other effect, or of one `Effect`
(60_exceptions.md R88). -/
theorem exec_cases (i : Instr) (s : State) :
    (∃ e, e ≠ .none ∧ exec i s = .next (complete e s)) ∨
      ∃ u, Effect s u ∧ exec i s = .next (complete .none u) := by
  cases i with
  | size b =>
    rcases sizeBody_cases b s with ⟨e, he, h⟩ | ⟨w, -, -, h⟩
    · exact .inl ⟨e, he, by simp [exec, execSize, h]⟩
    · exact .inr ⟨_, .res0 _, by rw [exec, execSize, h]; rfl⟩
  | enc8 b =>
    rcases enc8Cells_cases b s with ⟨e, he, h⟩ | ⟨w, -, hc, h⟩
    · exact .inl ⟨e, he, by simp [exec, execEnc8, encodeBody, h]⟩
    · exact .inr ⟨_, .mem _ (destCells_inside hc (length_sourceOf8 s)), by simp [exec, execEnc8, encodeBody, h]⟩
  | enc16 b =>
    rcases enc16Cells_cases b s with ⟨e, he, h⟩ | ⟨w, -, hc, h⟩
    · exact .inl ⟨e, he, by simp [exec, execEnc16, encodeBody, h]⟩
    · exact .inr ⟨_, .mem _ (destCells_inside hc (length_sourceOf16 s)), by simp [exec, execEnc16, encodeBody, h]⟩
  | dec b =>
    rcases decBody_cases b s with ⟨e, he, h⟩ | ⟨w, -, -, h⟩
    · exact .inl ⟨e, he, by simp [exec, execDec, h]⟩
    · exact .inr ⟨_, .res0 _, by rw [exec, execDec, h]; rfl⟩
  | dec3 b =>
    rcases dec3Body_cases b s with ⟨e, he, h⟩ | ⟨w, -, -, h⟩
    · exact .inl ⟨e, he, by simp [exec, execDec3, h]⟩
    · exact .inr ⟨_, .res _ _ _, by rw [exec, execDec3, h]; rfl⟩

/-- The rest of a started command ends like a command: an illegal word is an error. -/
theorem runStarted_cases (s : State) :
    (∃ e, e ≠ .none ∧ runStarted s = .next (complete e s)) ∨
      ∃ u, Effect s u ∧ runStarted s = .next (complete .none u) := by
  unfold runStarted
  cases hd : decode s.cmd with
  | error e => exact .inl ⟨.illegalCommand, by simp, rfl⟩
  | ok i => exact exec_cases i s

end Sys2Proof.Machine
end

