-- ==== Sys2Proof/Laws/Footprint.lean ====
section
/-! SUPPORT. Which bytes each command reads and writes once its checks have passed, and what a command gives when nobody
races with it on those bytes (70_reset_and_hazards.md R112). -/

namespace Sys2Proof.Machine

/-- `addressesFrom` is a range. -/
theorem mem_addressesFrom (a len x : Nat) : x ∈ addressesFrom a len ↔ a ≤ x ∧ x < a + len := by
  simp only [addressesFrom, List.mem_map, List.mem_range]
  constructor
  · rintro ⟨j, hj, rfl⟩; omega
  · intro h; exact ⟨x - a, by omega, by omega⟩

/-- The addresses a sequence of bytes fills are a range. -/
theorem mem_map_cellsFrom (bs : List Byte) (a x : Nat) :
    x ∈ (cellsFrom a bs).map Prod.fst ↔ a ≤ x ∧ x < a + bs.length := by
  induction bs generalizing a with
  | nil => simp [cellsFrom]
  | cons b rest ih =>
    simp only [cellsFrom, List.map_cons, List.mem_cons, ih, List.length_cons]
    omega

/-- The destination cells lie at the image's addresses, whatever has been raced. -/
theorem map_fst_destCells (s : State) (bs : List Byte) :
    (destCells s bs).map Prod.fst = (cellsFrom s.buf.toNat bs).map Prod.fst := by
  unfold destCells
  rw [List.map_map]
  exact List.map_congr_left fun c _ => destCell_fst s c

/-- What `enc8Cells` answers once its checks have passed. -/
theorem enc8Cells_ok {b : BitVec 8} {w : Width} {s : State} (hl : legalWidth .enc8 b = some w)
    (hc : encCheck w s.n.toNat s = none) : enc8Cells b s = .ok (destCells s (image (sourceOf8 s) w)) := by
  simp [enc8Cells, hl, hc, checkedCells]

/-- What `enc16Cells` answers once its checks have passed. -/
theorem enc16Cells_ok {b : BitVec 8} {w : Width} {s : State} (hl : legalWidth .enc16 b = some w)
    (hc : encCheck w (2 * s.n.toNat) s = none) : enc16Cells b s = .ok (destCells s (image (sourceOf16 s) w)) := by
  simp [enc16Cells, hl, hc, checkedCells]

/-- A successful ENC8 reads its n source bytes. -/
theorem mem_readFootprint_enc8 {b : BitVec 8} {w : Width} {s : State} (hl : legalWidth .enc8 b = some w)
    (hc : encCheck w s.n.toNat s = none) (a : Nat) :
    a ∈ readFootprint (.enc8 b) s ↔ s.src.toNat ≤ a ∧ a < s.src.toNat + s.n.toNat := by
  simp only [readFootprint, enc8Cells_ok hl hc, unlessError, mem_addressesFrom]

/-- A successful ENC16 reads its 2n source bytes. -/
theorem mem_readFootprint_enc16 {b : BitVec 8} {w : Width} {s : State} (hl : legalWidth .enc16 b = some w)
    (hc : encCheck w (2 * s.n.toNat) s = none) (a : Nat) :
    a ∈ readFootprint (.enc16 b) s ↔ s.src.toNat ≤ a ∧ a < s.src.toNat + 2 * s.n.toNat := by
  simp only [readFootprint, enc16Cells_ok hl hc, unlessError, mem_addressesFrom]

/-- A successful ENC8 writes its destination range. -/
theorem mem_writeFootprint_enc8 {b : BitVec 8} {w : Width} {s : State} (hl : legalWidth .enc8 b = some w)
    (hc : encCheck w s.n.toNat s = none) (a : Nat) :
    a ∈ writeFootprint (.enc8 b) s ↔ s.buf.toNat ≤ a ∧ a < s.buf.toNat + size s.n.toNat w := by
  simp only [writeFootprint, commandCells, enc8Cells_ok hl hc, Except.toOption, Option.getD, map_fst_destCells,
    mem_map_cellsFrom, length_image, length_sourceOf8]

/-- A successful ENC16 writes its destination range. -/
theorem mem_writeFootprint_enc16 {b : BitVec 8} {w : Width} {s : State} (hl : legalWidth .enc16 b = some w)
    (hc : encCheck w (2 * s.n.toNat) s = none) (a : Nat) :
    a ∈ writeFootprint (.enc16 b) s ↔ s.buf.toNat ≤ a ∧ a < s.buf.toNat + size s.n.toNat w := by
  simp only [writeFootprint, commandCells, enc16Cells_ok hl hc, Except.toOption, Option.getD, map_fst_destCells,
    mem_map_cellsFrom, length_image, length_sourceOf16]

/-- The bytes read for one index run from its offset to its extent. -/
theorem mem_decodeFootprint {b : BitVec 8} {w : Width} (hb : b.toNat = w.bits) (s : State) (i a : Nat) :
    a ∈ decodeFootprint b s i ↔ s.buf.toNat + off i w ≤ a ∧ a < s.buf.toNat + extent i w := by
  simp only [decodeFootprint, (widthOf_eq_some b w).2 hb, mem_addressesFrom, extent]
  omega

/-- A successful DEC reads the bytes of its index. -/
theorem readFootprint_dec {b : BitVec 8} {w : Width} {s : State} (hl : legalWidth .dec b = some w)
    (hc : decCheck (extent s.idx0.toNat w) s = none) :
    readFootprint (.dec b) s = decodeFootprint b s s.idx0.toNat := by
  simp only [readFootprint, decBody, hl, hc, unlessError]

/-- A successful DEC3 reads the bytes of its three indices. -/
theorem readFootprint_dec3 {b : BitVec 8} {w : Width} {s : State} (hl : legalWidth .dec3 b = some w)
    (hc : decCheck (extent (maxIndex s) w) s = none) :
    readFootprint (.dec3 b) s =
      decodeFootprint b s s.idx0.toNat ++ decodeFootprint b s s.idx1.toNat ++ decodeFootprint b s s.idx2.toNat := by
  simp only [readFootprint, dec3Body, hl, hc, unlessError]

/-- The source of an ENC8 that nobody races with is what memory holds. -/
theorem Unraced.sourceOf8 {b : BitVec 8} {w : Width} {s : State} (h : Unraced (.enc8 b) s)
    (hl : legalWidth .enc8 b = some w) (hc : encCheck w s.n.toNat s = none) :
    sourceOf8 s = (List.range s.n.toNat).map fun k => (s.mem.read (s.src.toNat + k)).setWidth 16 := by
  unfold Machine.sourceOf8
  refine List.map_congr_left fun k hk => srcElem8_exact (h _ (.inl ((mem_readFootprint_enc8 hl hc _).2 ?_)))
  have := List.mem_range.1 hk
  omega

/-- The source of an ENC16 that nobody races with is what memory holds, low byte first. -/
theorem Unraced.sourceOf16 {b : BitVec 8} {w : Width} {s : State} (h : Unraced (.enc16 b) s)
    (hl : legalWidth .enc16 b = some w) (hc : encCheck w (2 * s.n.toNat) s = none) :
    sourceOf16 s = (List.range s.n.toNat).map fun k =>
      le16 (s.mem.read (s.src.toNat + 2 * k)) (s.mem.read (s.src.toNat + 2 * k + 1)) := by
  unfold Machine.sourceOf16
  refine List.map_congr_left fun k hk => ?_
  have := List.mem_range.1 hk
  exact srcElem16_exact (h _ (.inl ((mem_readFootprint_enc16 hl hc _).2 (by omega))))
    (h _ (.inl ((mem_readFootprint_enc16 hl hc _).2 (by omega))))

/-- The cells of an ENC8 that nobody races with are the image's bytes. -/
theorem Unraced.enc8Cells {b : BitVec 8} {w : Width} {s : State} (h : Unraced (.enc8 b) s)
    (hl : legalWidth .enc8 b = some w) (hc : encCheck w s.n.toNat s = none) :
    enc8Cells b s = .ok (cellsFrom s.buf.toNat (image (Machine.sourceOf8 s) w)) := by
  rw [enc8Cells_ok hl hc, destCells_exact]
  intro a h1 h2
  rw [length_image, length_sourceOf8] at h2
  exact h a (.inr ((mem_writeFootprint_enc8 hl hc a).2 ⟨h1, h2⟩))

/-- The cells of an ENC16 that nobody races with are the image's bytes. -/
theorem Unraced.enc16Cells {b : BitVec 8} {w : Width} {s : State} (h : Unraced (.enc16 b) s)
    (hl : legalWidth .enc16 b = some w) (hc : encCheck w (2 * s.n.toNat) s = none) :
    enc16Cells b s = .ok (cellsFrom s.buf.toNat (image (Machine.sourceOf16 s) w)) := by
  rw [enc16Cells_ok hl hc, destCells_exact]
  intro a h1 h2
  rw [length_image, length_sourceOf16] at h2
  exact h a (.inr ((mem_writeFootprint_enc16 hl hc a).2 ⟨h1, h2⟩))

end Sys2Proof.Machine
end

