-- ==== Sys2Proof/Laws/PerInstr.lean ====
section
/-! SUPPORT. Per-instruction facts about the encoding. -/

namespace Sys2Proof.Laws.EncodedFields

/-- The encoder puts BPK at bits 15:8 and leaves the reserved bits 0 (30_encoding.md R54). -/
def Statement (i : Instr) : Prop := rsvField (encode i) = 0 ∧ bpkField (encode i) = i.bpk

/-- The upper fields of a word built from BPK and OPC. -/
theorem fields_of_or (b o : BitVec 8) :
    rsvField ((b.setWidth 32 <<< 8) ||| o.setWidth 32) = 0 ∧ bpkField ((b.setWidth 32 <<< 8) ||| o.setWidth 32) = b := by
  constructor <;> apply BitVec.eq_of_getLsbD_eq <;> intro k hk
  · have h1 : b.getLsbD (16 + k - 8) = false := BitVec.getLsbD_of_ge _ _ (by omega)
    have h2 : o.getLsbD (16 + k) = false := BitVec.getLsbD_of_ge _ _ (by omega)
    simp [rsvField, h1, h2]
  · have h : 8 + k < 32 := by omega
    simp [bpkField, h, hk]

theorem size (b : BitVec 8) : Statement (.size b) := fields_of_or b _
theorem enc8 (b : BitVec 8) : Statement (.enc8 b) := fields_of_or b _
theorem enc16 (b : BitVec 8) : Statement (.enc16 b) := fields_of_or b _
theorem dec (b : BitVec 8) : Statement (.dec b) := fields_of_or b _
theorem dec3 (b : BitVec 8) : Statement (.dec3 b) := fields_of_or b _

end Sys2Proof.Laws.EncodedFields
end

