-- ==== Sys2Proof/Laws/Step.lean ====
section
/-! SUPPORT. Everything a step can do, said once: `step_to`. A proof about every step is a case analysis of `StepTo`. -/

namespace Sys2Proof.Machine

/-- A started command's completion, by its two ways of ending (60_exceptions.md R88). -/
inductive Completes (s : State) : State → Prop where
  | failed (e : ErrorCode) (he : e ≠ .none) : Completes s (complete e s)
  | done {u : State} (h : Effect s u) : Completes s (complete .none u)

/-- The next states of a state, one constructor per kind of event. -/
inductive StepTo (s : State) : State → Prop where
  /-- Nothing to come and nothing in flight. -/
  | idle (hf : s.inflight = none) (hp : s.pending = []) : StepTo s s
  /-- A register access of the right form that only takes a place in the list: a write of a reserved offset or of a RO
  register. -/
  | ignored {e : HostEvent} {rest : List HostEvent} (hf : s.inflight = none) (hp : s.pending = e :: rest) :
      StepTo s (s.withPending rest)
  /-- A write of a register other than CMD. -/
  | operand {e : HostEvent} {rest : List HostEvent} (r : RegName) (v : Word) (hr : r ≠ .cmd) (hf : s.inflight = none)
      (hp : s.pending = e :: rest) : StepTo s (writeReg r v (s.withPending rest))
  /-- A host read between commands. -/
  | read {e : HostEvent} {rest : List HostEvent} (v : Word) (hf : s.inflight = none) (hp : s.pending = e :: rest) :
      StepTo s ((s.withPending rest).withLastRead v)
  /-- A whole command. -/
  | command {e : HostEvent} {rest : List HostEvent} {t : State} (g : Nat) (w : Word) (hf : s.inflight = none)
      (hp : s.pending = e :: rest) (hk : s.completesCommand = true) (h : Completes (startCommand g w (s.withPending rest)) t) : StepTo s t
  /-- A legal command that stays in flight. -/
  | begins {rest : List HostEvent} (g : Nat) (w : Word) (hf : s.inflight = none)
      (hp : s.pending = .cmdBegin g w :: rest)
      (hw : isLegalWord w = true) : StepTo s (startCommand g w (s.withPending rest))
  /-- Byte writes between commands. -/
  | memWrite {rest : List HostEvent} (ag : Agent) (a : Nat) (bs : List Byte) (hf : s.inflight = none)
      (hp : s.pending = .memWrite ag a bs :: rest) (hk : s.completesCommand = false)
      (ha : inMem s.memSize a bs.length = true) :
      StepTo s ((s.withPending rest).withMem (s.mem.writeCells (cellsFrom a bs)))
  /-- Reset between commands. -/
  | reset {rest : List HostEvent} (hf : s.inflight = none) (hp : s.pending = .reset :: rest) :
      StepTo s (applyReset (s.withPending rest))
  /-- The in-flight command completes; no event is taken. -/
  | completes {f : InFlight} {t : State} (hf : s.inflight = some f) (hk : s.completesCommand = true)
      (h : Completes s t) : StepTo s t
  /-- A STATUS read while a command is in flight. -/
  | statusRead {f : InFlight} {e : HostEvent} {rest : List HostEvent} (v : Word) (hf : s.inflight = some f)
      (hp : s.pending = e :: rest) : StepTo s ((s.withPending rest).withLastRead v)
  /-- Byte writes of another agent while a command is in flight. -/
  | raceWrite {f : InFlight} {rest : List HostEvent} (ag : Agent) (a : Nat) (bs : List Byte) (hf : s.inflight = some f)
      (hp : s.pending = .memWrite ag a bs :: rest) (hk : s.completesCommand = false)
      (ha : inMem s.memSize a bs.length = true) :
      StepTo s ((((s.withPending rest).withMem (s.mem.writeCells (cellsFrom a bs))).touch
        ((cellsFrom a bs).map Prod.fst)).drawn)
  /-- A byte read of another agent while a command is in flight. -/
  | raceRead {f : InFlight} {e : HostEvent} {rest : List HostEvent} (v : Word) (hf : s.inflight = some f)
      (hp : s.pending = e :: rest) : StepTo s (((s.withPending rest).withLastRead v).drawn)
  /-- Reset while a command is in flight. -/
  | abandoned {f : InFlight} {rest : List HostEvent} (hf : s.inflight = some f) (hp : s.pending = .reset :: rest) :
      StepTo s (abandon (s.withPending rest))

/-- The register at an offset has that offset. -/
theorem offsetOf_of_regAt {o : Fin 64} {r : RegName} (h : regAt o = some r) : offsetOf r = o := by
  simpa [regAt] using List.find?_some h

/-- A started command that answers a next state has completed. -/
theorem runStarted_completes {s t : State} (h : runStarted s = .next t) : Completes s t := by
  rcases runStarted_cases s with ⟨e, he, h'⟩ | ⟨u, hu, h'⟩
  · obtain rfl := Host.Outcome.next.inj (h'.symm.trans h); exact .failed e he
  · obtain rfl := Host.Outcome.next.inj (h'.symm.trans h); exact .done hu

/-- A register read that answers a next state returns data and changes nothing else. -/
theorem serveRegRead_next {o : Fin 64} {b : Nat} {s t : State} (h : serveRegRead o b s = .next t) :
    t = s.withLastRead (windowRead o s) := by
  unfold serveRegRead at h
  split at h
  · exact (Host.Outcome.next.inj h).symm
  · exact absurd h (by simp)

/-- A step that answers a next state from a state with nothing in flight. -/
theorem serveNext_to {s t : State} (hf : s.inflight = none) (h : serveNext s = .next t) : StepTo s t := by
  unfold serveNext at h
  split at h
  next hp => obtain rfl := Host.Outcome.next.inj h; exact .idle hf hp
  next e rest hp =>
    cases e with
    | regWrite g o b v =>
      simp only [serveIdle, serveRegWrite] at h
      split at h
      next ha =>
        unfold windowWrite at h
        split at h
        next => obtain rfl := Host.Outcome.next.inj h; exact .ignored hf hp
        next r hr =>
          split at h
          next hc =>
            subst hc
            exact .command g v hf hp
              (by simp [State.completesCommand, hf, hp, HostEvent.runsCommand, ha, offsetOf_of_regAt hr])
              (runStarted_completes h)
          next hc => obtain rfl := Host.Outcome.next.inj h; exact .operand r v hc hf hp
      · exact absurd h (by simp)
    | regRead g o b => rw [serveRegRead_next h]; exact .read _ hf hp
    | cmdBegin g w =>
      simp only [serveIdle, beginCommand] at h
      split at h
      next hd =>
        exact .command g w hf hp (by simp [State.completesCommand, hf, hp, HostEvent.runsCommand, isLegalWord, hd])
          (runStarted_completes h)
      next i hd =>
        split at h
        next hi => obtain rfl := Host.Outcome.next.inj h; exact .begins g w hf hp (by simp [isLegalWord, hd, hi])
        next hi =>
          exact .command g w hf hp (by simp [State.completesCommand, hf, hp, HostEvent.runsCommand, isLegalWord, hd, hi])
            (runStarted_completes h)
    | memWrite ag a bs =>
      simp only [serveIdle, serveMemWrite] at h
      split at h
      next ha => obtain rfl := Host.Outcome.next.inj h; exact .memWrite ag a bs hf hp (by simp [State.completesCommand, hf, hp, HostEvent.runsCommand]) ha
      · exact absurd h (by simp)
    | memRead ag a =>
      simp only [serveIdle, serveMemRead] at h
      split at h
      · obtain rfl := Host.Outcome.next.inj h; exact .read _ hf hp
      · exact absurd h (by simp)
    | reset => obtain rfl := Host.Outcome.next.inj h; exact .reset hf hp

/-- A step that answers a next state from a state with a command in flight. -/
theorem serveInFlight_to {s t : State} {f : InFlight} (hf : s.inflight = some f) (h : serveInFlight f s = .next t) :
    StepTo s t := by
  unfold serveInFlight at h
  split at h
  next hp => exact .completes hf (by simp [State.completesCommand, hf, hp]) (runStarted_completes h)
  next e rest hp =>
    have hk : s.completesCommand = e.waitsFor f := by simp only [State.completesCommand, hf, hp]
    split at h
    next hw => exact .completes hf (hk.trans hw) (runStarted_completes h)
    next hw =>
      cases e with
      | regRead g o b => rw [serveRegRead_next h]; exact .statusRead _ hf hp
      | memWrite ag a bs =>
        simp only [raceMemWrite] at h
        split at h
        next ha => obtain rfl := Host.Outcome.next.inj h; exact .raceWrite ag a bs hf hp (hk.trans (by simpa using hw)) ha
        · exact absurd h (by simp)
      | memRead ag a =>
        simp only [raceMemRead] at h
        split at h
        · obtain rfl := Host.Outcome.next.inj h; exact .raceRead _ hf hp
        · exact absurd h (by simp)
      | reset => obtain rfl := Host.Outcome.next.inj h; exact .abandoned hf hp
      | regWrite g o b v => exact absurd rfl hw
      | cmdBegin g w => exact absurd rfl hw

/-- Everything a step that answers a next state can have done. -/
theorem step_to {s t : State} (h : step s = .next t) : StepTo s t := by
  unfold step at h
  split at h
  next hf => exact serveNext_to hf h
  next f hf => exact serveInFlight_to hf h

/-- The in-flight command completes in a step that meets an access that has to wait for it; no event is taken. -/
theorem step_of_waitsFor {s : State} {f : InFlight} {e : HostEvent} {rest : List HostEvent} (hf : s.inflight = some f)
    (hp : s.pending = e :: rest) (hw : e.waitsFor f = true) : step s = runStarted s := by
  simp only [step, hf, serveInFlight, hp, hw, if_true]

/-- A step that completes a command runs a started one; until then ERRSEEN, memory and the RES registers are as they were. -/
theorem step_of_completesCommand {s : State} (h : s.completesCommand = true) :
    ∃ u, step s = runStarted u ∧ u.status.errSeen = s.status.errSeen ∧ u.mem = s.mem ∧ u.memSize = s.memSize ∧
      u.res0 = s.res0 ∧ u.res1 = s.res1 ∧ u.res2 = s.res2 := by
  cases hf : s.inflight with
  | some f =>
    refine ⟨s, ?_, rfl, rfl, rfl, rfl, rfl, rfl⟩
    cases hp : s.pending with
    | nil => simp only [step, hf, serveInFlight, hp]
    | cons e rest => exact step_of_waitsFor hf hp (by simpa [State.completesCommand, hf, hp] using h)
  | none =>
    cases hp : s.pending with
    | nil => simp [State.completesCommand, hf, hp] at h
    | cons e rest =>
      have hs : step s = serveIdle e (s.withPending rest) := by simp only [step, hf, serveNext, hp]
      replace h : e.runsCommand = true := by simpa [State.completesCommand, hf, hp] using h
      rw [hs]
      cases e with
      | regWrite g o b v =>
        simp only [HostEvent.runsCommand, Bool.and_eq_true, decide_eq_true_eq] at h
        refine ⟨startCommand g v (s.withPending rest), ?_, rfl, rfl, rfl, rfl, rfl, rfl⟩
        have hr : regAt (offsetOf .cmd) = some .cmd := by decide
        obtain ⟨h, rfl⟩ := h
        simp only [serveIdle, serveRegWrite, h, if_true, windowWrite, hr, execute]
      | cmdBegin g w =>
        refine ⟨startCommand g w (s.withPending rest), ?_, rfl, rfl, rfl, rfl, rfl, rfl⟩
        simp only [serveIdle, beginCommand, HostEvent.runsCommand, isLegalWord] at h ⊢
        cases hd : decode w with
        | error e => rfl
        | ok i => simp only [hd, Bool.not_eq_true'] at h; simp [h, execute]
      | regRead g o b => simp [HostEvent.runsCommand] at h
      | memWrite ag a bs => simp [HostEvent.runsCommand] at h
      | memRead ag a => simp [HostEvent.runsCommand] at h
      | reset => simp [HostEvent.runsCommand] at h

/-- Recording a race changes only the in-flight command. -/
theorem touch_eq (s : State) (as : List Nat) : ∃ f, s.touch as = s.withInflight f := by
  unfold State.touch
  split
  · exact ⟨s.inflight, rfl⟩
  · exact ⟨_, rfl⟩

/-- The addresses an in-flight command will write lie inside memory. -/
theorem commandCells_inside (i : Instr) (s : State) : ∀ c ∈ commandCells i s, c.1 < s.memSize := by
  cases i with
  | size b => simp [commandCells]
  | enc8 b =>
    rcases enc8Cells_cases b s with ⟨e, -, h⟩ | ⟨w, -, hc, h⟩
    · simp [commandCells, h, Except.toOption]
    · simpa [commandCells, h, Except.toOption] using destCells_inside hc (length_sourceOf8 s)
  | enc16 b =>
    rcases enc16Cells_cases b s with ⟨e, -, h⟩ | ⟨w, -, hc, h⟩
    · simp [commandCells, h, Except.toOption]
    · simpa [commandCells, h, Except.toOption] using destCells_inside hc (length_sourceOf16 s)
  | dec b => simp [commandCells]
  | dec3 b => simp [commandCells]

/-- The in-flight command's cells lie inside memory. -/
theorem inflightCells_inside (s : State) : ∀ c ∈ inflightCells s, c.1 < s.memSize := by
  unfold inflightCells
  split
  · simp
  next i _ => exact commandCells_inside i s

end Sys2Proof.Machine
end

