-- ==== Sys2Proof/Tests/Slice0.lean ====
section
/-! SUPPORT. The model's own tests. Expected values come from spec/95_test_vectors.md (named by its ids), from
30_encoding.md, or by hand from the rules. The theorems named `witness_` show, for each obligation with hypotheses, a
concrete state and operands that meet all of them. -/

open Sys2Proof Sys2Proof.Machine

namespace Sys2Proof.Tests

/-- A part of the next state, none at a fault or a refusal. -/
def after {α : Type} (o : Host.Outcome State Fault Refusal) (f : State → α) : Option α :=
  match o with
  | .next t => some (f t)
  | .fault _ => none
  | .refused _ => none

/-- Reset registers over a memory of 0x100 bytes. -/
def start (mem : Memory) : State := { State.reset with memSize := 0x100, mem := mem }

/-- The operands of an encode. -/
def encState (mem : Memory) (src n buf buflen : Word) : State :=
  { start mem with src := src, n := n, buf := buf, buflen := buflen }

/-- The operands of a decode; the RES registers start at 0x77. -/
def decState (mem : Memory) (buf buflen i0 i1 i2 : Word) : State :=
  { start mem with
    buf := buf, buflen := buflen, idx0 := i0, idx1 := i1, idx2 := i2, res0 := 0x77, res1 := 0x77, res2 := 0x77 }

/-- Three source bytes and a canary. -/
def mem8 : Memory := [(0, 0xFA), (1, 0x3B), (2, 0x7C), (0x80, 0xEE), (0x81, 0xEE), (0x82, 0xEE)]

/-- The 16-bit elements 0x0ABC, 0xF123, 0x00FF at an odd address. -/
def mem16 : Memory :=
  [(0x41, 0xBC), (0x42, 0x0A), (0x43, 0x23), (0x44, 0xF1), (0x45, 0xFF), (0x85, 0xEE), (0x86, 0xEE)]

/-- The bpk 12 image of 0x123, 0x456, 0x789, 0xABC. -/
def buf12 : Memory := [(0x80, 0x23), (0x81, 0x61), (0x82, 0x45), (0x83, 0x89), (0x84, 0xC7), (0x85, 0xAB)]

/-- A state whose next event is `e`. -/
def facing (s : State) (e : HostEvent) : State := s.withPending [e]

/-- A state with host 0's command of `w` in flight, disturbed at some addresses, and `e` next. -/
def running (s : State) (w : Word) (touched : List Nat) (e : HostEvent) : State :=
  { s with
    cmd := w, status := s.status.started, inflight := some { issuer := 0, tag := s.draws, touched := touched }
    pending := [e] }

/-- A read of memory after a command. -/
def bytesAfter (o : Host.Outcome State Fault Refusal) (a len : Nat) : Option (List Byte) :=
  after o fun t => (List.range len).map fun j => t.mem.read (a + j)

/-! ## WellFormed: an ill-formed term for each operation, refused -/

theorem test_size_5_ill_formed : (Instr.size 5).wellFormed = false := by decide
theorem test_enc8_12_ill_formed : (Instr.enc8 12).wellFormed = false := by decide
theorem test_enc16_8_ill_formed : (Instr.enc16 8).wellFormed = false := by decide
theorem test_dec_0_ill_formed : (Instr.dec 0).wellFormed = false := by decide
theorem test_dec3_9_ill_formed : (Instr.dec3 9).wellFormed = false := by decide

/-! ## Decoding: words written out from the fields of 30_encoding.md R54, in the order RSV, BPK, OPC -/

theorem test_decode_size_4 : decode 0b0000000000000000_00000100_00000001 = .ok (.size 4) := by decide
theorem test_decode_enc8_8 : decode 0b0000000000000000_00001000_00000010 = .ok (.enc8 8) := by decide
theorem test_decode_enc16_12 : decode 0b0000000000000000_00001100_00000011 = .ok (.enc16 12) := by decide
theorem test_decode_dec_12 : decode 0b0000000000000000_00001100_00000100 = .ok (.dec 12) := by decide
theorem test_decode_dec3_16 : decode 0b0000000000000000_00010000_00000101 = .ok (.dec3 16) := by decide
/-- V55: a BPK outside the set is still a command. -/
theorem test_decode_enc8_12 : decode 0x00000C02 = .ok (.enc8 12) := by decide
/-- V53 and V54: a reserved bit, at either end of the field. -/
theorem test_decode_reserved :
    decode 0x00010401 = .error .reservedBits ∧ decode 0x80000C04 = .error .reservedBits := by decide
/-- V51 and V52. -/
theorem test_decode_unassigned : decode 0x00000000 = .error .unassignedOpcode ∧
    decode 0x00000006 = .error .unassignedOpcode ∧ decode 0x000004FF = .error .unassignedOpcode := by decide
/-- 30_encoding.md R61. -/
theorem test_encode_dec_12 : encode (.dec 12) = 0x00000C04 := by decide
theorem test_decodeTableWord : decodeTableWord 32 0x1005 = some (.dec3 16) ∧ decodeTableWord 32 0x6 = none := by decide

/-! ## One step per instruction -/

/-- V1, n = 0xAAAAAAAA at bpk 12. -/
theorem test_size_largest : after (exec (.size 12) { start [] with n := 0xAAAAAAAA }) (fun t => (t.res0, t.status.word)) =
    some (0xFFFFFFFF, 0) := by decide
/-- V1, n = 0x80000000 at bpk 16. -/
theorem test_size_overflow : after (exec (.size 16) { start [] with n := 0x80000000, res0 := 7 })
    (fun t => (t.res0, t.status.word)) = some (7, 0x00000302) := by decide
/-- V8: an odd tail, and the byte past the size. -/
theorem test_enc8_odd_tail : bytesAfter (exec (.enc8 4) (encState mem8 0 3 0x80 2)) 0x80 3 = some [0xBA, 0x0C, 0xEE] := by
  decide
/-- V14: the ranges share byte 0x02. -/
theorem test_enc8_overlap : after (exec (.enc8 8) (encState mem8 0 3 2 3)) (fun t => (t.status.word, t.mem == mem8)) =
    some (0x00000702, true) := by decide
/-- V17: an odd count, an odd source address, bits 15:12 discarded, and the byte past the size. -/
theorem test_enc16_odd_tail : bytesAfter (exec (.enc16 12) (encState mem16 0x41 3 0x80 6)) 0x80 7 =
    some [0xBC, 0x3A, 0x12, 0xFF, 0x00, 0x00, 0xEE] := by decide
/-- V23: the source range is 2n bytes. -/
theorem test_enc16_source_fault : after (exec (.enc16 16) (encState mem16 0xFD 2 0 4)) (fun t => t.status.word) =
    some 0x00000602 := by decide
/-- V30, i = 3, and V32. -/
theorem test_dec_12 : after (exec (.dec 12) (decState buf12 0x80 6 3 0 0)) (fun t => (t.res0, t.res1)) =
    some (0xABC, 0x77) := by decide
theorem test_dec_whole_trio : after (exec (.dec 12) (decState buf12 0x80 5 2 0 0)) (fun t => (t.res0, t.status.word)) =
    some (0x77, 0x00000502) := by decide
/-- V43: register order, not sorted. -/
theorem test_dec3_order : after (exec (.dec3 12) (decState buf12 0x80 6 3 0 2)) (fun t => (t.res0, t.res1, t.res2)) =
    some (0xABC, 0x123, 0x789) := by decide
/-- V48: OUT_OF_RANGE outranks ACCESS_FAULT. -/
theorem test_dec3_priority : after (exec (.dec3 8) (decState [] 0xFE 2 0 5 1)) (fun t => (t.res0, t.status.word)) =
    some (0x77, 0x00000502) := by decide
/-- V53 and V57: an illegal word is latched. -/
theorem test_step_illegal_latched : after (step ((start []).withFetchWord 32 0x00010401)) (fun t => (t.cmd, t.status.word)) =
    some (0x00010401, 0x00000102) := by decide
/-- 20_memory.md R49: the race of one element's byte leaves DEC3's other results exact. -/
theorem test_race_other_results : after
    (runSteps 2 (running (decState buf12 0x80 3 0 1 2) 0x00000805 [] (.memWrite (.other 0) 0x80 [0x99])))
    (fun t => (t.res1, t.res2)) = some (0x61, 0x45) := by decide
/-- 20_memory.md R47, V8: the issuing host's own read, after its begun ENC8, gets the byte the ENC8 wrote. -/
theorem test_issuer_reads_after_its_command : after
    (runSteps 3 ((encState mem8 0 3 0x80 2).withPending [.cmdBegin 0 0x00000402, .memRead (.host 0) 0x80]))
    (fun t => t.lastRead) = some (some 0xBA) := by decide
/-- 70_reset_and_hazards.md R108: an abandoned DEC changes no memory. -/
theorem test_abandoned_dec : after (step (running (decState buf12 0x80 6 3 0 0) 0x00000C04 [] .reset))
    (fun t => (t.mem == buf12, t.res0, t.cmd)) = some (true, 0, 0) := by decide
/-- 2.8 of spec/95_test_vectors.md: ERRSEEN stays. -/
theorem test_errSeen_stays : after (step (facing { start [] with status := { busy := false, errSeen := true, errCode := 1 } }
    (cmdWrite 0 0x00000401))) (fun t => t.status.word) = some 0x00000002 := by decide

/-! ## Witnesses: each obligation's hypotheses, met together -/

theorem witness_TabledWordsDecode : ((0x00000C04, .dec 12) : Word × Instr) ∈ legalWords := by decide
theorem witness_EncodeOfDecodedWordIsTheWord : decode 0x00000C04 = .ok (.dec 12) := by decide
theorem witness_IllegalCommandExactly :
    (65536 ≤ (0x00010000 : Word).toNat ∧ (0x00000400 : Word).toNat % 256 = 0 ∧ 5 < (0x00000406 : Word).toNat % 256) ∧
    ∃ t, execute 0 0x00010402 (start []) = .next t ∧ t.status.errCode = 1 := ⟨by decide, _, rfl, by decide⟩
theorem witness_InvalidWidthExactly : (5 : BitVec 8).toNat ∉ [4, 8, 12, 16] ∧ (12 : BitVec 8).toNat ∉ [4, 8] ∧
    (8 : BitVec 8).toNat ∉ [12, 16] ∧ ∃ t, exec (.enc16 8) (start []) = .next t ∧ t.status.errCode = 2 :=
  ⟨by decide, by decide, by decide, _, rfl, by decide⟩
theorem witness_StepRunsTheDecodedCommand : ∃ s : State,
    s.inflight = none ∧ s.pending = cmdWrite 0 0x00000C04 :: [] ∧ decode 0x00000C04 = .ok (.dec 12) :=
  ⟨facing (start []) (cmdWrite 0 0x00000C04), by decide⟩
theorem witness_FetchedWordIsRun : decodeTableWord 32 0x00000C04 = some (.dec 12) := by decide
/-- A width the word names, and a width for a word that names none. -/
theorem witness_FirstErrorInPriorityOrder :
    ((0x00000C04 : Word).toNat / 256 % 256 ∈ [4, 8, 12, 16] → Width.w12.bits = (0x00000C04 : Word).toNat / 256 % 256) ∧
    (∃ t, execute 0 0x00000C04 (start []) = .next t ∧ t.status.errCode = 5) ∧
    ((0x00000504 : Word).toNat / 256 % 256 ∈ [4, 8, 12, 16] → Width.w4.bits = (0x00000504 : Word).toNat / 256 % 256) ∧
    (∃ t, execute 0 0x00000504 (start []) = .next t ∧ t.status.errCode = 2) :=
  ⟨by decide, ⟨_, rfl, by decide⟩, by decide, ⟨_, rfl, by decide⟩⟩
theorem witness_OnlyTheseStepsStop :
    step (facing (start []) (.memRead (.other 0) 0x100)) = .fault .noSuchAddress ∧
    step (facing (start []) (.memWrite (.other 0) 0xFF [1, 2])) = .fault .noSuchAddress ∧
    step (facing (start []) (.regRead 1 0x08 16)) = .refused .registerAccessForm ∧
    step (facing (start []) (.regWrite 1 0x0D 32 0)) = .refused .registerAccessForm := ⟨rfl, rfl, rfl, rfl⟩
theorem witness_IdleUnitHoldsEverything : (start []).pending = [] ∧ (start []).inflight = none := by decide
/-- The largest counts that fit and the smallest that do not, at bpk 12 and 16. -/
theorem witness_SizeCommand :
    ((12 : BitVec 8).toNat = Width.w12.bits ∧ size (2863311530#32).toNat .w12 < 2 ^ 32 ∧
      2 ^ 32 ≤ size (2863311531#32).toNat .w12) ∧
    ((16 : BitVec 8).toNat = Width.w16.bits ∧ size (0x7FFFFFFF#32).toNat .w16 < 2 ^ 32 ∧
      2 ^ 32 ≤ size (0x80000000#32).toNat .w16) ∧
    (9 : BitVec 8).toNat ∉ [4, 8, 12, 16] := by decide
theorem witness_SizeOverflowRaisers :
    ((12 : BitVec 8).toNat = Width.w12.bits ∧ 2 ^ 32 ≤ size (2863311531#32).toNat .w12) ∧
    (∃ t, exec (.enc8 4) (encState mem8 0 3 0x80 2) = .next t) ∧
    (∃ t, exec (.size 12) (encState [] 0 2863311531 0 0) = .next t ∧ t.status.errCode = 3) :=
  ⟨by decide, ⟨_, rfl⟩, ⟨_, rfl, by decide⟩⟩
theorem witness_PackersByTheirRules : (0x00FF : Elem).toNat < 256 := by decide
theorem witness_OddTailIsZeroFilled : ([] : List Elem).length % 2 = 0 ∧ ([1, 2] : List Elem).length % 2 = 0 := by decide
theorem witness_TruncationOnly : ([0xF123] : List Elem).map (fun x => x.toNat % 2 ^ Width.w12.bits) =
    ([0x0123] : List Elem).map (fun x => x.toNat % 2 ^ Width.w12.bits) := by decide
theorem witness_LocatorTable : 4 ≤ 5 := by decide
/-- V6: the image of three bpk 4 elements, at 0x80. -/
theorem witness_ImageRoundTrip : 2 < ([0xFA, 0x3B, 0x7C] : List Elem).length ∧
    (∀ x ∈ ([0xFA, 0x3B, 0x7C] : List Elem), x.toNat < 256) ∧
    ∀ (j : Nat) (hj : j < (image [0xFA, 0x3B, 0x7C] .w4).length),
      Memory.read [(0x80, 0xBA), (0x81, 0x0C)] (0x80 + j) = (image [0xFA, 0x3B, 0x7C] .w4)[j] := by
  have e : image [0xFA, 0x3B, 0x7C] .w4 = [0xBA, 0x0C] := by decide
  rw [e]
  exact ⟨by decide, by simp, by decide⟩
theorem witness_SizeIsExactAndCovers : 4 < 5 ∧ 0 < 5 := by decide
/-- `Unraced` by enumeration. -/
theorem unraced_of {i : Instr} {s : State} (h : (readFootprint i s ++ writeFootprint i s).all (fun a => !s.raced a) = true) :
    Unraced i s := by
  intro a ha
  simpa using List.all_eq_true.1 h a (List.mem_append.2 ha)

/-- A command in flight while another agent has written byte 0xF0, which none of the commands below touches. -/
def besides (s : State) : State :=
  { s with status := s.status.started, inflight := some { issuer := 0, tag := 0, touched := [0xF0] } }

/-- V15b: the destination ends exactly at MEM_SIZE. -/
theorem witness_Enc8WritesTheImage : (besides (encState mem8 0 3 0xFD 3)).mem.wf = true ∧
    Unraced (.enc8 8) (besides (encState mem8 0 3 0xFD 3)) ∧ (8 : BitVec 8).toNat = Width.w8.bits ∧
    EncodeMayRun .w8 3 (besides (encState mem8 0 3 0xFD 3)) :=
  ⟨by decide, unraced_of (by decide), by decide, by unfold EncodeMayRun; decide⟩
theorem witness_Enc16WritesTheImage : (besides (encState mem16 0x41 3 0x80 6)).mem.wf = true ∧
    Unraced (.enc16 12) (besides (encState mem16 0x41 3 0x80 6)) ∧ (12 : BitVec 8).toNat = Width.w12.bits ∧
    EncodeMayRun .w12 (2 * 3) (besides (encState mem16 0x41 3 0x80 6)) :=
  ⟨by decide, unraced_of (by decide), by decide, by unfold EncodeMayRun; decide⟩
/-- One state per clause: V21, V20, V23, a destination that leaves memory, V22, V17, and V11. -/
theorem witness_EncoderChecksInOrder :
    2 ^ 32 ≤ size (0x80000000#32).toNat .w16 ∧
    (size (3#32).toNat .w16 < 2 ^ 32 ∧ (5#32).toNat < size (3#32).toNat .w16) ∧
    (2 * 2 ≠ 0 ∧ size (2#32).toNat .w16 ≤ (4#32).toNat ∧ 0x100 < (0xFD#32).toNat + 2 * 2) ∧
    (size (2#32).toNat .w16 ≠ 0 ∧ (0x10#32).toNat + 2 * 2 ≤ 0x100 ∧ 0x100 < (0xFD#32).toNat + size (2#32).toNat .w16) ∧
    (0 < 2 * 2 ∧ 0 < size (2#32).toNat .w16 ∧ (0x40#32).toNat < (0x43#32).toNat + size (2#32).toNat .w16 ∧
      (0x43#32).toNat < (0x40#32).toNat + 2 * 2) ∧
    EncodeMayRun .w12 (2 * 3) (encState mem16 0x41 3 0x80 6) ∧
    (encState [] 0xFFFFFFF0 0 0xFFFFFFF0 0).n = 0 := by unfold EncodeMayRun; decide
/-- A success and a failure. -/
theorem witness_EncoderFrame : (∃ t, exec (.enc8 4) (encState mem8 0 3 0x80 2) = .next t ∧ t.status.errCode = 0) ∧
    (∃ t, exec (.enc8 4) (encState mem8 0 3 0x80 1) = .next t ∧ t.status.errCode ≠ 0) ∧
    (4 : BitVec 8).toNat = Width.w4.bits ∧ (encState mem8 0 3 0x80 2).buf.toNat + size (3#32).toNat .w4 ≤ 0x82 :=
  ⟨⟨_, rfl, by decide⟩, ⟨_, rfl, by decide⟩, by decide, by decide⟩
/-- Two memories that differ in the destination and in a byte the command does not name. -/
theorem witness_CommandsDependOnlyOnTheirReadBytes :
    (encState mem8 0 3 0x80 2).mem.wf = true ∧ Memory.wf [(0, 0xFA), (1, 0x3B), (2, 0x7C), (0x90, 1)] = true ∧
    (∀ a ∈ readFootprint (.enc8 4) (encState mem8 0 3 0x80 2),
      Memory.read [(0, 0xFA), (1, 0x3B), (2, 0x7C), (0x90, 1)] a = (encState mem8 0 3 0x80 2).mem.read a) ∧
    (∃ t, exec (.enc8 4) (encState mem8 0 3 0x80 2) = .next t) ∧
    (∃ t, exec (.enc8 4) ((encState mem8 0 3 0x80 2).withMem [(0, 0xFA), (1, 0x3B), (2, 0x7C), (0x90, 1)]) = .next t) :=
  ⟨by decide, by decide, by decide, ⟨_, rfl⟩, ⟨_, rfl⟩⟩
theorem witness_AccessCounts : (12 : BitVec 8).toNat = Width.w12.bits ∧
    ∃ t, exec (.enc16 12) (encState mem16 0x41 3 0x80 6) = .next t ∧ t.status.errCode = 0 := ⟨by decide, _, rfl, by decide⟩
/-- The last element of an odd count, for each encoder. -/
theorem witness_EncodeThenDecodeGivesTheElement :
    ((besides (encState mem8 0 3 0x80 2)).mem.wf = true ∧ Unraced (.enc8 4) (besides (encState mem8 0 3 0x80 2)) ∧
      (4 : BitVec 8).toNat = Width.w4.bits ∧ 2 < (besides (encState mem8 0 3 0x80 2)).n.toNat ∧
      ∃ t, exec (.enc8 4) (besides (encState mem8 0 3 0x80 2)) = .next t ∧ t.status.errCode = 0) ∧
    ((besides (encState mem16 0x41 3 0x80 6)).mem.wf = true ∧
      Unraced (.enc16 12) (besides (encState mem16 0x41 3 0x80 6)) ∧
      (12 : BitVec 8).toNat = Width.w12.bits ∧ 2 < (besides (encState mem16 0x41 3 0x80 6)).n.toNat ∧
      ∃ t, exec (.enc16 12) (besides (encState mem16 0x41 3 0x80 6)) = .next t ∧ t.status.errCode = 0) :=
  ⟨⟨by decide, unraced_of (by decide), by decide, by decide, _, rfl, by decide⟩,
    ⟨by decide, unraced_of (by decide), by decide, by decide, _, rfl, by decide⟩⟩
/-- One state per clause: V40 (the extent ends at MEM_SIZE), V32, V41, and V39. -/
theorem witness_DecCommand :
    (Unraced (.dec 16) (besides (decState [] 0xFE 4 0 0 0)) ∧ (16 : BitVec 8).toNat = Width.w16.bits ∧
      DecodeMayRun (extent 0 .w16) (besides (decState [] 0xFE 4 0 0 0))) ∧
    (decState buf12 0x80 5 2 0 0).buflen.toNat < extent (decState buf12 0x80 5 2 0 0).idx0.toNat .w12 ∧
    (extent 0 .w16 ≤ (decState [] 0xFF 4 0 0 0).buflen.toNat ∧ 0x100 < (0xFF#32).toNat + extent 0 .w16) ∧
    (5 : BitVec 8).toNat ∉ [4, 8, 12, 16] :=
  ⟨⟨unraced_of (by decide), by decide, by unfold DecodeMayRun; decide⟩, by decide, by decide, by decide⟩
/-- One state per clause: V43, V46, V49, and V50. -/
theorem witness_Dec3Command :
    (Unraced (.dec3 12) (besides (decState buf12 0x80 6 3 0 2)) ∧ (12 : BitVec 8).toNat = Width.w12.bits ∧
      DecodeMayRun (extent (max 3 (max 0 2)) .w12) (besides (decState buf12 0x80 6 3 0 2))) ∧
    (decState [] 0x80 4 0 2 1).buflen.toNat < extent (max 0 (max 2 1)) .w16 ∧
    (extent (max 0 (max 3 1)) .w8 ≤ (decState [] 0xFE 4 0 3 1).buflen.toNat ∧
      0x100 < (0xFE#32).toNat + extent (max 0 (max 3 1)) .w8) ∧
    (0 : BitVec 8).toNat ∉ [4, 8, 12, 16] :=
  ⟨⟨unraced_of (by decide), by decide, by unfold DecodeMayRun; decide⟩, by decide, by decide, by decide⟩
/-- A batch that succeeds, and V48, one of whose scalar decodes is out of range. -/
theorem witness_BatchEqualsThreeScalarDecodes : 
    Unraced (.dec3 12) (besides (decState buf12 0x80 6 3 0 2)) ∧ (12 : BitVec 8).toNat = Width.w12.bits ∧ (∃ t, exec (.dec3 12) (besides (decState buf12 0x80 6 3 0 2)) = .next t ∧
      t.status.errCode = 0) ∧
    (∃ t, exec (.dec 12) (besides (decState buf12 0x80 6 3 0 2)) = .next t ∧ t.res0 = 0xABC) ∧
    (∃ t, exec (.dec 12) { besides (decState buf12 0x80 6 3 0 2) with idx0 := 0 } = .next t ∧ t.res0 = 0x123) ∧
    (∃ t, exec (.dec 12) { besides (decState buf12 0x80 6 3 0 2) with idx0 := 2 } = .next t ∧ t.res0 = 0x789) ∧
    (∃ t, exec (.dec3 8) (decState [] 0xFE 2 0 5 1) = .next t ∧ t.status.errCode = 5) :=
  ⟨unraced_of (by decide), by decide, ⟨_, rfl, by decide⟩, ⟨_, rfl, by decide⟩, ⟨_, rfl, by decide⟩, ⟨_, rfl, by decide⟩,
    ⟨_, rfl, by decide⟩⟩
theorem witness_ResultCommandsFrame :
    (∃ t, exec (.dec 12) (decState buf12 0x80 6 3 0 2) = .next t ∧ t.status.errCode = 0) ∧
    (∃ t, exec (.dec3 12) (decState buf12 0x80 6 4 0 2) = .next t ∧ t.status.errCode ≠ 0) :=
  ⟨⟨_, rfl, by decide⟩, ⟨_, rfl, by decide⟩⟩
theorem witness_DecodedValuesFitTheirWidth : (12 : BitVec 8).toNat = Width.w12.bits ∧
    (∃ t, exec (.dec 12) (decState buf12 0x80 6 3 0 2) = .next t ∧ t.status.errCode = 0) ∧
    (∃ t, exec (.dec3 12) (decState buf12 0x80 6 3 0 2) = .next t ∧ t.status.errCode = 0) :=
  ⟨by decide, ⟨_, rfl, by decide⟩, ⟨_, rfl, by decide⟩⟩
/-- A failing CMD write; a begun command that fails in flight; a step that completes none; a reset that clears ERRSEEN; and a
run that completes a command and leaves it 0. -/
theorem witness_ErrSeenIsSticky :
    (∃ t, execute 0 0x00000000 (start []) = .next t ∧ t.status.errCode ≠ 0) ∧
    (∃ s t, s.inflight.isSome = true ∧ s.completesCommand = true ∧ step s = .next t ∧ t.status.errCode ≠ 0 ∧
      runStarted s = .next t) ∧
    (∃ s t, s.completesCommand = false ∧ step s = .next t) ∧
    (∃ s t, step s = .next t ∧ s.status.errSeen = true ∧ t.status.errSeen = false ∧ s.pending = .reset :: []) ∧
    (∃ s t, (∀ e ∈ s.pending, e ≠ .reset) ∧ runSteps 1 s = .next t ∧ t.status.errSeen = false ∧
      s.completesCommand = true ∧ step s = .next t) :=
  ⟨⟨_, rfl, by decide⟩,
    ⟨running (decState buf12 0x80 6 4 0 0) 0x00000C04 [] (.regRead 1 0x28 32), _, rfl, by decide, rfl, by decide, rfl⟩,
    ⟨facing (start []) (.regRead 1 0x28 32), _, by decide, rfl⟩,
    ⟨facing { start [] with status := { busy := false, errSeen := true, errCode := 0 } } .reset, _, rfl, rfl, rfl, rfl⟩,
    ⟨facing (start []) (cmdWrite 0 0x00000401), _, by decide, rfl, rfl, by decide, rfl⟩⟩
theorem witness_OnlyResultsChangeRes : ∃ t,
    step (facing (decState buf12 0x80 6 3 0 2) (cmdWrite 0 0x00000C04)) = .next t ∧ t.res0 ≠ 0x77 := ⟨_, rfl, by decide⟩
theorem witness_OnlyTheseStepsChangeMemory : ∃ t,
    step (facing (encState mem8 0 3 0x80 2) (cmdWrite 0 0x00000402)) = .next t ∧ t.mem ≠ mem8 := ⟨_, rfl, by decide⟩
theorem witness_NoCommandReadsStatus : ∃ t, exec (.dec 12) (decState buf12 0x80 6 3 0 2) = .next t := ⟨_, rfl⟩
theorem witness_UnreadRegistersDoNotMatter : (∃ t, exec (.size 12) (start []) = .next t) ∧
    (∃ t, exec (.enc8 4) (encState mem8 0 3 0x80 2) = .next t) ∧
    (∃ t, exec (.dec 12) (decState buf12 0x80 6 3 0 2) = .next t) ∧
    (∃ t, exec (.dec3 12) (decState buf12 0x80 6 3 0 2) = .next t) := ⟨⟨_, rfl⟩, ⟨_, rfl⟩, ⟨_, rfl⟩, ⟨_, rfl⟩⟩
theorem witness_StatusRegisterLayout : (facing (start []) (.regWrite 1 0x08 32 0xFFFFFFFF)).inflight = none ∧
    (facing (start []) (.regWrite 1 0x08 32 0xFFFFFFFF)).pending = .regWrite 1 0x08 32 0xFFFFFFFF :: [] := by decide
theorem witness_IdIsConstant : (facing (start []) (.regRead 1 0x00 32)).inflight = none ∧
    (facing (start []) (.regRead 1 0x00 32)).pending = .regRead 1 0x00 32 :: [] ∧
    (facing (start []) (.regWrite 1 0x00 32 1)).pending = .regWrite 1 0x00 32 1 :: [] := by decide
/-- An access of each kind that the clauses name; they exclude each other by width, direction and offset. -/
theorem witness_RegisterAccessRules : (start []).inflight = none ∧
    (facing (start []) (.regWrite 1 0x0C 16 1)).pending = .regWrite 1 0x0C 16 1 :: [] ∧
    (facing (start []) (.regRead 1 0x3F 32)).pending = .regRead 1 0x3F 32 :: [] ∧
    (facing (start []) (.regWrite 1 0x3C 32 1)).pending = .regWrite 1 0x3C 32 1 :: [] ∧
    (facing (start []) (.regWrite 1 0x24 32 1)).pending = .regWrite 1 0x24 32 1 :: [] ∧
    (facing (start []) (.regRead 1 0x3C 32)).pending = .regRead 1 0x3C 32 :: [] ∧
    (0x3F : Fin 64).val % 4 ≠ 0 ∧ (0x3C : Fin 64).val % 4 = 0 := by decide
theorem witness_WindowIsSixtyFourAddresses : Config.regBase + 64 ≤ Config.regBase + 64 := Nat.le_refl _
theorem witness_RegisterAccessesWaitForTheCommand :
    (running (start []) 0x00000401 [] (.regRead 1 0x28 32)).inflight = some { issuer := 0, tag := 0, touched := [] } ∧
    (running (start []) 0x00000401 [] (.regRead 1 0x28 32)).pending = .regRead 1 0x28 32 :: [] ∧
    isWaitingAccess 0 (.regRead 1 0x28 32) ∧ isWaitingAccess 0 (.memRead (.host 0) 0) ∧
    (running (start []) 0x00000401 [] (.regRead 1 0x08 32)).pending = .regRead 1 0x08 32 :: [] ∧ 1 ≠ 0 ∧
    (running (start []) 0x00000401 [] (.regRead 1 0x08 32)).status.busy = true ∧
    (∃ t, step (running (start []) 0x00000401 [] (.regRead 1 0x08 32)) = .next t ∧ t.inflight.isSome = true) :=
  ⟨rfl, rfl, by simp [isWaitingAccess], by simp [isWaitingAccess], rfl, by decide, rfl, ⟨_, rfl, rfl⟩⟩
/-- Host 0 begins a DEC and then reads STATUS. -/
theorem witness_BeginThenCompleteIsOneStep :
    ((start []).withPending [.cmdBegin 0 0x00000C04, .regRead 0 0x08 32]).inflight = none ∧
    ((start []).withPending [.cmdBegin 0 0x00000C04, .regRead 0 0x08 32]).pending =
      .cmdBegin 0 0x00000C04 :: [.regRead 0 0x08 32] ∧ isLegalWord 0x00000C04 = true ∧
    ∀ e ∈ ([.regRead 0 0x08 32] : List HostEvent).head?, isWaitingAccess 0 e :=
  ⟨rfl, rfl, by decide, by simp [isWaitingAccess]⟩
theorem witness_IllegalWordCompletesAtOnce : (facing (start []) (.cmdBegin 0 0x00000504)).inflight = none ∧
    (facing (start []) (.cmdBegin 0 0x00000504)).pending = .cmdBegin 0 0x00000504 :: [] ∧ isLegalWord 0x00000504 = false ∧
    isLegalWord 0x00010401 = false := ⟨rfl, rfl, by decide, by decide⟩
theorem witness_RacedReadIsOldOrNew :
    (running (encState mem8 0 3 0x80 2) 0x00000402 [] (.memRead (.other 0) 0x80)).mem.wf = true ∧
    (∃ f, (running (encState mem8 0 3 0x80 2) 0x00000402 [] (.memRead (.other 0) 0x80)).inflight = some f) ∧
    (running (encState mem8 0 3 0x80 2) 0x00000402 [] (.memRead (.other 0) 0x80)).pending = .memRead (.other 0) 0x80 :: [] ∧
    Agent.other 0 ≠ .host 0 ∧ 0x80 < (encState mem8 0 3 0x80 2).memSize :=
  ⟨by decide, ⟨_, rfl⟩, rfl, by decide, by decide⟩
/-- Host 0 reads a byte its own ENC8 wrote, reads STATUS, and reads after a whole CMD write. -/
theorem witness_IssuingHostSeesItsCommandCompleted :
    ((running (encState mem8 0 3 0x80 2) 0x00000402 [] (.memRead (.host 0) 0x80)).inflight =
      some { issuer := 0, tag := 0, touched := [] } ∧
      (running (encState mem8 0 3 0x80 2) 0x00000402 [] (.memRead (.host 0) 0x80)).pending = .memRead (.host 0) 0x80 :: [] ∧
      0x80 < (encState mem8 0 3 0x80 2).memSize) ∧
    (running (start []) 0x00000401 [] (.regRead 0 0x08 32)).pending = .regRead 0 0x08 32 :: [] ∧
    ((start []).withPending [cmdWrite 0 0x00000402, .memRead (.host 0) 0xFF]).pending =
      cmdWrite 0 0x00000402 :: .memRead (.host 0) 0xFF :: [] := by decide
/-- A write into the source of an ENC8 of host 0, by another host, up to the end of memory. -/
theorem witness_AgentWriteDuringACommand :
    (running (encState mem8 0 3 0x80 2) 0x00000402 [] (.memWrite (.host 1) 0xFF [9])).mem.wf = true ∧
    (running (encState mem8 0 3 0x80 2) 0x00000402 [] (.memWrite (.host 1) 0xFF [9])).inflight =
      some { issuer := 0, tag := 0, touched := [] } ∧
    Agent.host 1 ≠ .host 0 ∧
    (running (encState mem8 0 3 0x80 2) 0x00000402 [] (.memWrite (.host 1) 0xFF [9])).pending =
      .memWrite (.host 1) 0xFF [9] :: [] ∧
    0xFF + ([9] : List Byte).length ≤ (encState mem8 0 3 0x80 2).memSize := by decide
/-- Element 0's byte is raced, and the results of indices 1 and 2 are not. -/
theorem witness_UnracedResultsOfDec3AreExact : (8 : BitVec 8).toNat = Width.w8.bits ∧
    DecodeMayRun (extent (max 0 (max 1 2)) .w8)
      (running (decState buf12 0x80 3 0 1 2) 0x00000805 [0x80] .reset) ∧
    (running (decState buf12 0x80 3 0 1 2) 0x00000805 [0x80] .reset).raced 0x80 = true ∧
    ∀ i, i = 1 ∨ i = 2 → IndexUnraced (running (decState buf12 0x80 3 0 1 2) 0x00000805 [0x80] .reset) i .w8 := by
  refine ⟨by decide, by unfold DecodeMayRun; decide, by decide, ?_⟩
  intro i hi a h1 h2
  have h1 : 0x80 + i ≤ a := h1
  have h : a ≠ 0x80 := by omega
  simp [State.raced, running, h]
/-- Source byte 0 is raced, and element 2 of the odd tail is not. -/
theorem witness_UnracedElementsOfEncodesAreExact :
    (running (encState mem8 0 3 0x80 2) 0x00000402 [0] .reset).mem.wf = true ∧ (4 : BitVec 8).toNat = Width.w4.bits ∧
    EncodeMayRun .w4 3 (running (encState mem8 0 3 0x80 2) 0x00000402 [0] .reset) ∧
    (running (encState mem8 0 3 0x80 2) 0x00000402 [0] .reset).raced (0 + 0) = true ∧
    (running (encState mem8 0 3 0x80 2) 0x00000402 [0] .reset).raced (0 + 2) = false ∧
    (∀ o ∈ elementBytes 2 .w4, (running (encState mem8 0 3 0x80 2) 0x00000402 [0] .reset).raced (0x80 + o) = false) ∧
    EncodeMayRun .w12 (2 * 3) (running (encState mem16 0x41 3 0x80 6) 0x00000C03 [0x41] .reset) ∧
    (∀ o ∈ elementBytes 1 .w12, (running (encState mem16 0x41 3 0x80 6) 0x00000C03 [0x41] .reset).raced (0x80 + o) = false) ∧
    (running (encState mem16 0x41 3 0x80 6) 0x00000C03 [0x41] .reset).raced (0x41 + 2) = false ∧
    (running (encState mem16 0x41 3 0x80 6) 0x00000C03 [0x41] .reset).raced (0x41 + 2 + 1) = false := by
  unfold EncodeMayRun; decide
theorem witness_HostMemoryAccesses :
    (facing (start mem8) (.memWrite (.other 0) 0xFE [1, 2])).mem.wf = true ∧
    (facing (start mem8) (.memWrite (.other 0) 0xFE [1, 2])).inflight = none ∧
    (facing (start mem8) (.memWrite (.other 0) 0xFE [1, 2])).pending = .memWrite (.other 0) 0xFE [1, 2] :: [] ∧
    0xFE + ([1, 2] : List Byte).length ≤ (start mem8).memSize ∧
    (facing (start mem8) (.memRead (.other 0) 0xFF)).pending = .memRead (.other 0) 0xFF :: [] ∧ 0xFF < (start mem8).memSize := by decide
theorem witness_ResetValues : (facing (start mem8) .reset).inflight = none ∧
    (facing (start mem8) .reset).pending = .reset :: [] := by decide
theorem witness_ResetDuringACommand :
    (running (encState mem8 0 3 0x80 2) 0x00000402 [] .reset).mem.wf = true ∧
    (∃ f, (running (encState mem8 0 3 0x80 2) 0x00000402 [] .reset).inflight = some f) ∧
    (running (encState mem8 0 3 0x80 2) 0x00000402 [] .reset).pending = .reset :: [] := ⟨by decide, ⟨_, rfl⟩, rfl⟩
/-- A state that meets the invariant with a command in flight, and its step. -/
theorem witness_StepKeepsInv : Inv (running (encState mem8 0 3 0x80 2) 0x00000402 [] (.memWrite (.other 0) 0x90 [1])) ∧
    ∃ t, step (running (encState mem8 0 3 0x80 2) 0x00000402 [] (.memWrite (.other 0) 0x90 [1])) = .next t :=
  ⟨⟨by decide, by decide, by decide, by decide, by decide, by decide⟩, ⟨_, rfl⟩⟩
theorem witness_CanonicalMemoriesThatReadAlikeAreEqual : Memory.wf mem8 = true ∧ ∀ a, Memory.read mem8 a = Memory.read mem8 a :=
  ⟨by decide, fun _ => rfl⟩

end Sys2Proof.Tests
end

section
/-! SUPPORT. A register access between commands, and what it reads and writes (10_state.md R17, R22, R24, R29). -/

namespace Sys2Proof.Machine

@[simp] theorem writeReg_status (r : RegName) (v : Word) (s : State) : (writeReg r v s).status = s.status := by
  cases r <;> rfl
@[simp] theorem writeReg_mem (r : RegName) (v : Word) (s : State) : (writeReg r v s).mem = s.mem := by cases r <;> rfl
@[simp] theorem writeReg_pending (r : RegName) (v : Word) (s : State) : (writeReg r v s).pending = s.pending := by
  cases r <;> rfl
@[simp] theorem writeReg_inflight (r : RegName) (v : Word) (s : State) : (writeReg r v s).inflight = s.inflight := by
  cases r <;> rfl

/-- The RW registers without a side effect (10_state.md R17). -/
def RegName.isOperand : RegName → Bool
  | .n | .src | .buf | .buflen | .idx0 | .idx1 | .idx2 => true
  | .id | .cmd | .status | .res0 | .res1 | .res2 => false

/-- The RO registers (10_state.md R17). -/
def RegName.isReadOnly : RegName → Bool
  | .id | .status | .res0 | .res1 | .res2 => true
  | .cmd | .n | .src | .buf | .buflen | .idx0 | .idx1 | .idx2 => false

theorem writeReg_readOnly {r : RegName} (hr : r.isReadOnly = true) (v : Word) (s : State) : writeReg r v s = s := by
  cases r <;> simp_all [RegName.isReadOnly, writeReg]

theorem readReg_writeReg_same {r : RegName} (hr : r.isOperand = true) (v : Word) (s : State) :
    readReg r (writeReg r v s) = v := by
  cases r <;> simp_all [RegName.isOperand, writeReg, readReg]

theorem readReg_writeReg_other {r r' : RegName} (h : r' ≠ r) (v : Word) (s : State) :
    readReg r' (writeReg r v s) = readReg r' s := by
  cases r <;> cases r' <;> simp_all [writeReg, readReg]

@[simp] theorem readReg_withPending (r : RegName) (s : State) (es : List HostEvent) :
    readReg r (s.withPending es) = readReg r s := by
  cases r <;> rfl

theorem windowRead_of_regAt {o : Fin 64} {r : RegName} (h : regAt o = some r) (s : State) :
    windowRead o s = readReg r s := by
  simp only [windowRead, h]

theorem windowRead_of_reserved {o : Fin 64} (h : regAt o = none) (s : State) : windowRead o s = 0 := by
  simp only [windowRead, h]

@[simp] theorem windowRead_withPending (o : Fin 64) (s : State) (es : List HostEvent) :
    windowRead o (s.withPending es) = windowRead o s := by
  cases h : regAt o with
  | none => simp only [windowRead_of_reserved h]
  | some r => simp only [windowRead_of_regAt h, readReg_withPending]

/-- Two offsets never name one register, so a write is seen at its own offset only. -/
theorem windowRead_writeReg_other {o o' : Fin 64} {r : RegName} (hr : regAt o = some r) (ho : o' ≠ o) (v : Word)
    (s : State) : windowRead o' (writeReg r v s) = windowRead o' s := by
  cases h : regAt o' with
  | none => simp only [windowRead_of_reserved h]
  | some r' =>
    have hne : r' ≠ r := by
      rintro rfl
      exact ho ((offsetOf_of_regAt h).symm.trans (offsetOf_of_regAt hr))
    simp only [windowRead_of_regAt h, readReg_writeReg_other hne]

/-- The offsets of 10_state.md R17 that the unit reserves. -/
theorem regAt_reserved : ∀ o : Fin 64, o.val ∈ [0x34, 0x38, 0x3C] → regAt o = none := by decide

/-- The offsets of 10_state.md R17 that ignore a write: RO registers and the reserved words. -/
theorem regAt_ignoring : ∀ o : Fin 64, o.val ∈ [0x00, 0x08, 0x28, 0x2C, 0x30, 0x34, 0x38, 0x3C] →
    o.val % 4 = 0 ∧ ∀ r ∈ regAt o, r.isReadOnly = true := by decide

/-- The offsets of 10_state.md R17 that hold an operand. -/
theorem regAt_operand : ∀ o : Fin 64, o.val ∈ [0x0C, 0x10, 0x14, 0x18, 0x1C, 0x20, 0x24] →
    o.val % 4 = 0 ∧ ∃ r ∈ regAt o, r.isOperand = true := by decide

theorem windowWrite_ignored {o : Fin 64} (ho : ∀ r ∈ regAt o, r.isReadOnly = true) (h : Nat) (v : Word) (s : State) :
    windowWrite h o v s = .next s := by
  unfold windowWrite
  cases hr : regAt o with
  | none => rfl
  | some r =>
    have hro : r.isReadOnly = true := ho r hr
    have hcmd : r ≠ .cmd := by rintro rfl; cases hro
    simp only [hcmd, if_false, writeReg_readOnly hro]

theorem windowWrite_operand {o : Fin 64} {r : RegName} (hr : regAt o = some r) (hop : r.isOperand = true) (h : Nat)
    (v : Word) (s : State) : windowWrite h o v s = .next (writeReg r v s) := by
  have hcmd : r ≠ .cmd := by rintro rfl; cases hop
  simp only [windowWrite, hr, hcmd, if_false]

theorem accessOk_eq_true (o : Fin 64) (b : Nat) : accessOk o b = true ↔ b = 32 ∧ o.val % 4 = 0 := by simp [accessOk]

theorem step_of_idle {s : State} {e : HostEvent} {rest : List HostEvent} (hf : s.inflight = none)
    (hp : s.pending = e :: rest) : step s = serveIdle e (s.withPending rest) := by
  simp only [step, hf, serveNext, hp]

section access
variable {h : Nat} {s : State} {o : Fin 64} {b : Nat} {v : Word} {rest : List HostEvent}

theorem step_regWrite_refused (hf : s.inflight = none) (hp : s.pending = .regWrite h o b v :: rest)
    (ha : ¬ (b = 32 ∧ o.val % 4 = 0)) : step s = .refused .registerAccessForm := by
  rw [← accessOk_eq_true] at ha
  simp only [step_of_idle hf hp, serveIdle, serveRegWrite, if_neg ha]

theorem step_regRead_refused (hf : s.inflight = none) (hp : s.pending = .regRead h o b :: rest)
    (ha : ¬ (b = 32 ∧ o.val % 4 = 0)) : step s = .refused .registerAccessForm := by
  rw [← accessOk_eq_true] at ha
  simp only [step_of_idle hf hp, serveIdle, serveRegRead, if_neg ha]

theorem step_regWrite (hf : s.inflight = none) (hp : s.pending = .regWrite h o 32 v :: rest) (ha : o.val % 4 = 0) :
    step s = windowWrite h o v (s.withPending rest) := by
  simp only [step_of_idle hf hp, serveIdle, serveRegWrite, if_pos ((accessOk_eq_true o 32).2 ⟨rfl, ha⟩)]

theorem step_regRead (hf : s.inflight = none) (hp : s.pending = .regRead h o 32 :: rest) (ha : o.val % 4 = 0) :
    step s = .next ((s.withPending rest).withLastRead (windowRead o s)) := by
  simp only [step_of_idle hf hp, serveIdle, serveRegRead, if_pos ((accessOk_eq_true o 32).2 ⟨rfl, ha⟩),
    windowRead_withPending]

/-- A write of a RO register or of a reserved offset only takes its place in the list (10_state.md R29). -/
theorem step_regWrite_ignored (hf : s.inflight = none) (hp : s.pending = .regWrite h o 32 v :: rest)
    (ha : o.val % 4 = 0) (ho : ∀ r ∈ regAt o, r.isReadOnly = true) : step s = .next (s.withPending rest) := by
  rw [step_regWrite hf hp ha, windowWrite_ignored ho]

/-- A write of an operand register is that register's write (10_state.md R29). -/
theorem step_regWrite_operand {r : RegName} (hf : s.inflight = none) (hp : s.pending = .regWrite h o 32 v :: rest)
    (ha : o.val % 4 = 0) (hr : regAt o = some r) (hop : r.isOperand = true) :
    step s = .next (writeReg r v (s.withPending rest)) := by
  rw [step_regWrite hf hp ha, windowWrite_operand hr hop]

end access

/-- The three fields of STATUS do not overlap: BUSY and ERRSEEN lie below bit 2, ERRCODE starts at bit 8
(10_state.md R24). -/
theorem status_word_toNat (st : Status) :
    st.word.toNat = (if st.busy then 1 else 0) + (if st.errSeen then 2 else 0) + 256 * st.errCode.toNat := by
  have hflags : ((BitVec.ofBool st.busy).setWidth 32 ||| ((BitVec.ofBool st.errSeen).setWidth 32 <<< 1) : Word).toNat =
      (if st.busy then 1 else 0) + (if st.errSeen then 2 else 0) := by
    cases st.busy <;> cases st.errSeen <;> rfl
  have hcode : (st.errCode.setWidth 32 <<< 8 : Word).toNat = st.errCode.toNat <<< 8 := by
    have := st.errCode.isLt
    rw [BitVec.toNat_shiftLeft, BitVec.toNat_setWidth, Nat.shiftLeft_eq, Nat.shiftLeft_eq]
    omega
  have hlow : (if st.busy then 1 else 0) + (if st.errSeen then 2 else 0) < 2 ^ 8 := by split_ifs <;> decide
  rw [Status.word, BitVec.toNat_or, hflags, hcode, Nat.or_comm, ← Nat.shiftLeft_add_eq_or_of_lt hlow, Nat.shiftLeft_eq]
  omega

/-- Settles O41: STATUS is the sum of its fields, and its offset is one of those that ignore a write. -/
theorem statusRegisterLayout : Obligations.StatusRegisterLayout :=
  ⟨status_word_toNat, fun _ _ _ _ hf hp => step_regWrite_ignored hf hp rfl (by decide), rfl⟩

/-- Settles O42: ID's value does not depend on the state, and its offset is one of those that ignore a write. -/
theorem idIsConstant : Obligations.IdIsConstant :=
  ⟨fun _ _ _ hf hp => step_regRead hf hp rfl, fun _ _ _ _ hf hp => step_regWrite_ignored hf hp rfl (by decide),
    fun _ => rfl⟩

/-- Settles O43: an access is refused by its form, and otherwise the offset's register says what it does. -/
theorem registerAccessRules : Obligations.RegisterAccessRules := by
  intro h s rest hf
  refine ⟨fun o b v hp ha => step_regWrite_refused hf hp ha, fun o b hp ha => step_regRead_refused hf hp ha,
    fun o v hp ho => ?_, fun o v hp ho => ?_, fun o hp ha => step_regRead hf hp ha,
    fun o ho => windowRead_of_reserved (regAt_reserved o ho) s⟩
  · obtain ⟨ha, hro⟩ := regAt_ignoring o ho
    exact step_regWrite_ignored hf hp ha hro
  · obtain ⟨ha, r, hr, hop⟩ := regAt_operand o ho
    refine ⟨_, step_regWrite_operand hf hp ha hr hop, ?_, fun o' ho' => ?_, by simp, by simp, by simpa using hf⟩
    · rw [windowRead_of_regAt hr, readReg_writeReg_same hop]
    · rw [windowRead_writeReg_other hr ho', windowRead_withPending]

end Sys2Proof.Machine
end

section
/-! SUPPORT. ERRSEEN and ERRCODE over a step and over a run (10_state.md R26, R27). -/

namespace Sys2Proof.Machine

theorem Effect.status_eq {s u : State} (h : Effect s u) : u.status = s.status := by cases h <;> rfl

theorem Effect.pending_eq {s u : State} (h : Effect s u) : u.pending = s.pending := by cases h <;> rfl

/-- A completion sets ERRSEEN on an error and otherwise keeps it (60_exceptions.md R88). -/
theorem Completes.errSeen_eq {s t : State} (h : Completes s t) :
    t.status.errSeen = (s.status.errSeen || decide (t.status.errCode ≠ 0)) := by
  cases h with
  | failed e he => simp only [complete_status, completed_errSeen, completed_errCode, ne_eq, errorCodeBits_eq_zero]
  | done hu =>
    simp only [complete_status, completed_errSeen, completed_errCode, ne_eq, errorCodeBits_eq_zero, hu.status_eq]

theorem Completes.pending_eq {s t : State} (h : Completes s t) : t.pending = s.pending := by
  cases h with
  | failed e he => rfl
  | done hu => exact hu.pending_eq

theorem errSeen_of_runStarted {s t : State} (h : runStarted s = .next t) (he : t.status.errCode ≠ 0) :
    t.status.errSeen = true := by
  rw [(runStarted_completes h).errSeen_eq, decide_eq_true he, Bool.or_true]

/-- ERRSEEN after a step that completes a command. -/
theorem step_errSeen_of_completesCommand {s t : State} (hk : s.completesCommand = true) (h : step s = .next t) :
    t.status.errSeen = (s.status.errSeen || decide (t.status.errCode ≠ 0)) := by
  obtain ⟨u, hu, hseen, -⟩ := step_of_completesCommand hk
  rw [← hseen]
  exact (runStarted_completes (hu.symm.trans h)).errSeen_eq

@[simp] theorem touch_status (s : State) (as : List Nat) : (s.touch as).status = s.status := by
  obtain ⟨f, hf⟩ := touch_eq s as
  rw [hf, withInflight_status]

@[simp] theorem touch_pending (s : State) (as : List Nat) : (s.touch as).pending = s.pending := by
  obtain ⟨f, hf⟩ := touch_eq s as
  rw [hf, withInflight_pending]

@[simp] theorem drawn_status (s : State) : s.drawn.status = s.status := rfl
@[simp] theorem drawn_pending (s : State) : s.drawn.pending = s.pending := rfl
@[simp] theorem applyReset_status (s : State) : (applyReset s).status = State.reset.status := rfl
@[simp] theorem applyReset_pending (s : State) : (applyReset s).pending = s.pending := rfl
@[simp] theorem abandon_pending (s : State) : (abandon s).pending = s.pending := rfl

/-- Only the completion of a command and a reset touch ERRSEEN or ERRCODE (10_state.md R26, R27). -/
theorem step_keeps_error_report {s t : State} (hk : s.completesCommand = false) (h : step s = .next t) :
    (t.status.errSeen = s.status.errSeen ∧ t.status.errCode = s.status.errCode) ∨
      ∃ rest, s.pending = .reset :: rest := by
  cases step_to h with
  | command _ _ _ _ hk' => simp [hk] at hk'
  | completes _ hk' => simp [hk] at hk'
  | reset _ hp => exact .inr ⟨_, hp⟩
  | abandoned _ hp => exact .inr ⟨_, hp⟩
  | idle | ignored | operand | read | begins | memWrite | statusRead | raceWrite | raceRead => exact .inl (by simp)

/-- A step takes at most one event, and puts none in. -/
theorem step_pending_suffix {s t : State} (h : step s = .next t) : t.pending <:+ s.pending := by
  have taken {e : HostEvent} {rest : List HostEvent} (hp : s.pending = e :: rest) : rest <:+ s.pending :=
    hp ▸ List.suffix_cons e rest
  cases step_to h with
  | idle => exact List.suffix_rfl
  | completes _ _ hc => rw [hc.pending_eq]
  | command _ _ _ hp _ hc => rw [hc.pending_eq]; exact taken hp
  | ignored _ hp | operand _ _ _ _ hp | read _ _ hp | begins _ _ _ hp | memWrite _ _ _ _ hp | reset _ hp
  | statusRead _ _ hp | raceWrite _ _ _ _ hp | raceRead _ _ hp | abandoned _ hp => simpa using taken hp

/-- A reset never waits for the in-flight command, so the step that meets it always resets the registers
(70_reset_and_hazards.md R107, R108). -/
theorem step_of_reset {s : State} {rest : List HostEvent} (hp : s.pending = .reset :: rest) :
    ∃ u, step s = .next (applyReset u) := by
  cases hf : s.inflight with
  | none => exact ⟨_, step_of_idle hf hp⟩
  | some f =>
    have hw : HostEvent.reset.waitsFor f = false := rfl
    exact ⟨_, by simp only [step, hf, serveInFlight, hp, hw, Bool.false_eq_true, if_false]; rfl⟩

/-- Only a reset clears ERRSEEN (10_state.md R26). -/
theorem reset_of_errSeen_cleared {s t : State} (h : step s = .next t) (hs : s.status.errSeen = true)
    (ht : t.status.errSeen = false) : ∃ rest, s.pending = .reset :: rest := by
  cases hk : s.completesCommand with
  | true => simp [step_errSeen_of_completesCommand hk h, hs] at ht
  | false =>
    rcases step_keeps_error_report hk h with ⟨hseen, -⟩ | hreset
    · simp [hseen, hs] at ht
    · exact hreset

theorem runSteps_succ {s u : State} (h : step s = .next u) (k : Nat) : runSteps (k + 1) s = runSteps k u := by
  simp only [runSteps, h]

theorem step_next_of_runSteps_succ {k : Nat} {s t : State} (h : runSteps (k + 1) s = .next t) :
    ∃ u, step s = .next u ∧ runSteps k u = .next t := by
  cases hs : step s with
  | next u => exact ⟨u, rfl, runSteps_succ hs k ▸ h⟩
  | fault r => simp [runSteps, hs] at h
  | refused r => simp [runSteps, hs] at h

/-- "A run whose end state has ERRSEEN = 0 had no failing command since reset" (10_state.md R26), read backwards from the
end of the run: each step's end has ERRSEEN 0, so its start had, and the command it completed did not fail. -/
theorem no_failure_of_errSeen_clear (k : Nat) (s t : State) (hr : ∀ e ∈ s.pending, e ≠ .reset)
    (h : runSteps k s = .next t) (ht : t.status.errSeen = false) :
    s.status.errSeen = false ∧ ∀ (j : Nat) (u v : State), j < k → runSteps j s = .next u → u.completesCommand = true →
      step u = .next v → v.status.errCode = 0 := by
  induction k generalizing s with
  | zero =>
    obtain rfl := Host.Outcome.next.inj h
    exact ⟨ht, fun j _ _ hj => absurd hj (Nat.not_lt_zero j)⟩
  | succ k ih =>
    obtain ⟨s₁, hs, h₁⟩ := step_next_of_runSteps_succ h
    obtain ⟨hseen, hlater⟩ := ih s₁ (fun e he => hr e ((step_pending_suffix hs).subset he)) h₁
    refine ⟨?_, fun j u v hj hu hk hv => ?_⟩
    · by_contra hset
      obtain ⟨rest, hp⟩ := reset_of_errSeen_cleared hs (by simpa using hset) hseen
      exact hr .reset (by simp [hp]) rfl
    · cases j with
      | zero =>
        obtain rfl := Host.Outcome.next.inj hu
        obtain rfl := Host.Outcome.next.inj (hs.symm.trans hv)
        rw [step_errSeen_of_completesCommand hk hs, Bool.or_eq_false_iff, decide_eq_false_iff_not, not_not] at hseen
        exact hseen.2
      | succ j => exact hlater j u v (by omega) (runSteps_succ hs j ▸ hu) hk hv

/-- Settles O36: a completion ors the error into ERRSEEN, no other step but a reset touches it, and a run's clause is an
induction on its steps. -/
theorem errSeenIsSticky : Obligations.ErrSeenIsSticky := by
  refine ⟨fun _ _ _ _ h => errSeen_of_runStarted h, fun _ _ => errSeen_of_runStarted, fun s t hk h he => ?_,
    fun _ _ => step_keeps_error_report, fun _ _ => reset_of_errSeen_cleared, fun s t rest hp h => ?_,
    no_failure_of_errSeen_clear⟩
  · rw [step_errSeen_of_completesCommand hk h, decide_eq_true he, Bool.or_true]
  · obtain ⟨u, hu⟩ := step_of_reset hp
    obtain rfl := Host.Outcome.next.inj (hu.symm.trans h)
    rfl

end Sys2Proof.Machine
end

section
/-! SUPPORT. INVALID_WIDTH and the width check of the prologue (30_encoding.md R57, R58), and the expansions of the
pseudo-instructions (R62). -/

namespace Sys2Proof.Machine

/-- A command is ill-formed exactly when its BPK lies outside its operation's legal set (30_encoding.md R58). -/
theorem wellFormed_eq_false (i : Instr) : i.wellFormed = false ↔ i.bpk.toNat ∉ legalBpk i.opcode := by
  simp [Instr.wellFormed]

/-- An error's completion changes STATUS as 60_exceptions.md R88 says and nothing else. -/
theorem complete_eq_failedState {e : ErrorCode} (he : e ≠ .none) (s : State) :
    complete e s = failedState (errorCodeBits e) s := by
  have hstatus : s.status.completed e = { busy := false, errSeen := true, errCode := errorCodeBits e } := by
    simp [Status.completed, he]
  rw [complete, hstatus]
  rfl

/-- The body of a command after the start: what `exec` hands to `finish` (30_encoding.md R57). -/
def instrBody (i : Instr) (s : State) : Except ErrorCode State :=
  match i with
  | .size b => sizeBody b s
  | .enc8 b => encodeBody s (enc8Cells b s)
  | .enc16 b => encodeBody s (enc16Cells b s)
  | .dec b => decBody b s
  | .dec3 b => dec3Body b s

theorem exec_eq_finish (i : Instr) (s : State) : exec i s = finish s (instrBody i s) := by cases i <;> rfl

/-- ERRCODE tells which error a body raised (60_exceptions.md R89). -/
theorem eq_error_of_finish {s t : State} {r : Except ErrorCode State} {e : ErrorCode} (h : finish s r = .next t)
    (he : e ≠ .none) (hcode : t.status.errCode = errorCodeBits e) : r = .error e := by
  cases r with
  | error d =>
    obtain rfl := Host.Outcome.next.inj h
    rw [(errorCodeBits_injective d e).1 hcode]
  | ok u =>
    obtain rfl := Host.Outcome.next.inj h
    exact absurd ((errorCodeBits_injective .none e).1 hcode).symm he

/-- The encoders' check is made after the width check, and raises other errors (42_encoder.md R80). -/
theorem encCheck_ne_some_invalidWidth (w : Width) (len : Nat) (s : State) : encCheck w len s ≠ some .invalidWidth := by
  simp only [encCheck]
  split_ifs <;> simp

/-- The decoders' check is made after the width check, and raises other errors (43_scalar_decoder.md R84). -/
theorem decCheck_ne_some_invalidWidth (e : Nat) (s : State) : decCheck e s ≠ some .invalidWidth := by
  unfold decCheck
  split_ifs <;> simp

theorem checkedCells_eq_error (check : Option ErrorCode) (cells : List Host.Cell) (e : ErrorCode) :
    checkedCells check cells = .error e ↔ check = some e := by
  cases check <;> simp [checkedCells]

theorem encodeBody_eq_error (s : State) (cells : Except ErrorCode (List Host.Cell)) (e : ErrorCode) :
    encodeBody s cells = .error e ↔ cells = .error e := by
  cases cells <;> simp [encodeBody]

section width
variable (b : BitVec 8) (s : State)

theorem sizeBody_eq_invalidWidth : sizeBody b s = .error .invalidWidth ↔ legalWidth .size b = none := by
  unfold sizeBody
  cases legalWidth .size b with
  | none => simp
  | some w =>
    dsimp only
    split_ifs <;> simp

theorem enc8Cells_eq_invalidWidth : enc8Cells b s = .error .invalidWidth ↔ legalWidth .enc8 b = none := by
  unfold enc8Cells
  cases legalWidth .enc8 b with
  | none => simp
  | some w => simp [checkedCells_eq_error, encCheck_ne_some_invalidWidth]

theorem enc16Cells_eq_invalidWidth : enc16Cells b s = .error .invalidWidth ↔ legalWidth .enc16 b = none := by
  unfold enc16Cells
  cases legalWidth .enc16 b with
  | none => simp
  | some w => simp [checkedCells_eq_error, encCheck_ne_some_invalidWidth]

theorem decBody_eq_invalidWidth : decBody b s = .error .invalidWidth ↔ legalWidth .dec b = none := by
  unfold decBody
  cases legalWidth .dec b with
  | none => simp
  | some w =>
    cases hc : decCheck (extent s.idx0.toNat w) s with
    | none => simp [hc]
    | some e =>
      have hne : e ≠ .invalidWidth := fun he => decCheck_ne_some_invalidWidth _ _ (he ▸ hc)
      simp [hc, hne]

theorem dec3Body_eq_invalidWidth : dec3Body b s = .error .invalidWidth ↔ legalWidth .dec3 b = none := by
  unfold dec3Body
  cases legalWidth .dec3 b with
  | none => simp
  | some w =>
    cases hc : decCheck (extent (maxIndex s) w) s with
    | none => simp [hc]
    | some e =>
      have hne : e ≠ .invalidWidth := fun he => decCheck_ne_some_invalidWidth _ _ (he ▸ hc)
      simp [hc, hne]

end width

/-- A body raises INVALID_WIDTH in its width check and nowhere else. -/
theorem instrBody_eq_invalidWidth (i : Instr) (s : State) :
    instrBody i s = .error .invalidWidth ↔ i.bpk.toNat ∉ legalBpk i.opcode := by
  rw [← wellFormed_eq_false, ← legalWidth_eq_none]
  cases i with
  | size b => exact sizeBody_eq_invalidWidth b s
  | enc8 b => exact (encodeBody_eq_error s _ _).trans (enc8Cells_eq_invalidWidth b s)
  | enc16 b => exact (encodeBody_eq_error s _ _).trans (enc16Cells_eq_invalidWidth b s)
  | dec b => exact decBody_eq_invalidWidth b s
  | dec3 b => exact dec3Body_eq_invalidWidth b s

/-- A BPK outside the legal set ends the command with INVALID_WIDTH and no other effect (30_encoding.md R58). -/
theorem exec_of_illegalBpk {i : Instr} (h : i.bpk.toNat ∉ legalBpk i.opcode) (s : State) :
    exec i s = .next (failedState 2 s) := by
  have he : ErrorCode.invalidWidth ≠ .none := by decide
  rw [exec_eq_finish, (instrBody_eq_invalidWidth i s).2 h, finish_error, complete_eq_failedState he]
  rfl

/-- A command that ends with INVALID_WIDTH has a BPK outside the legal set (30_encoding.md R58). -/
theorem illegalBpk_of_errCode {i : Instr} {s t : State} (h : exec i s = .next t) (hcode : t.status.errCode = 2) :
    i.bpk.toNat ∉ legalBpk i.opcode := by
  rw [exec_eq_finish] at h
  exact (instrBody_eq_invalidWidth i s).1 (eq_error_of_finish h (by decide) hcode)

/-- Settles O6: each command's legal set is its row of `legalBpk`, and only the width check raises INVALID_WIDTH. -/
theorem invalidWidthExactly : Obligations.InvalidWidthExactly := by
  refine ⟨fun b s hb => ⟨?_, ?_, ?_⟩, fun b s hb => ?_, fun b s hb => ?_, fun i s t h hcode => ?_⟩
  · exact exec_of_illegalBpk (i := .size b) hb s
  · exact exec_of_illegalBpk (i := .dec b) hb s
  · exact exec_of_illegalBpk (i := .dec3 b) hb s
  · exact exec_of_illegalBpk (i := .enc8 b) hb s
  · exact exec_of_illegalBpk (i := .enc16 b) hb s
  · have hillegal := illegalBpk_of_errCode h hcode
    cases i <;> exact hillegal

/-- Settles O46: every statement of an expansion is one event, so the expansion's events are the pseudo-instruction's list,
one for one. -/
theorem pseudoInstructionExpansions : Obligations.PseudoInstructionExpansions :=
  ⟨fun _ _ _ => rfl, fun _ _ _ _ _ _ => rfl, fun _ _ _ _ _ _ => rfl, fun _ _ _ _ _ => rfl, fun _ _ _ _ _ _ _ => rfl⟩

end Sys2Proof.Machine
end

section
/-! SUPPORT. The size function, the packers and the unpackers in arithmetic, and the packed image read back
(40_bitfield_units.md R63 to R77). -/

namespace Sys2Proof.Machine

/-- Settles O14: the four formulas are the definition, and the corner cases are values of it. -/
theorem sizeFunctionByItsFormulas : Obligations.SizeFunctionByItsFormulas := by
  refine ⟨fun n => ⟨rfl, rfl, rfl, rfl⟩, fun w => ?_, by decide, by decide, by decide⟩
  cases w <;> rfl

/-- The extent does not fall as the index rises (40_bitfield_units.md R74). -/
theorem extent_mono {i j : Nat} (h : i ≤ j) (w : Width) : extent i w ≤ extent j w := by
  cases w <;> simp only [extent, off, bytesRead] <;> omega

/-- The last index needs the whole image (40_bitfield_units.md R77). -/
theorem extent_pred_eq_size {n : Nat} (h : 0 < n) (w : Width) : extent (n - 1) w = size n w := by
  cases w <;> simp only [extent, off, bytesRead, size] <;> omega

theorem extent_le_size {n i : Nat} (h : i < n) (w : Width) : extent i w ≤ size n w :=
  calc extent i w ≤ extent (n - 1) w := extent_mono (by omega) w
    _ = size n w := extent_pred_eq_size (by omega) w

/-- Settles O23: the size of an image is its length, and the extent rises to it at the last index. -/
theorem sizeIsExactAndCovers : Obligations.SizeIsExactAndCovers :=
  ⟨length_image, fun _ _ w h => extent_le_size h w, fun _ w h => extent_pred_eq_size h w⟩

/-! ## Bit fields in arithmetic -/

@[simp] theorem lowByte_toNat (v : Elem) : (lowByte v).toNat = v.toNat % 256 := by simp [lowByte]

theorem elemField_toNat (v : Elem) (lo : Nat) {len : Nat} (h : len ≤ 16) :
    (elemField v lo len).toNat = v.toNat / 2 ^ lo % 2 ^ len := by
  have hlt : v.toNat / 2 ^ lo % 2 ^ len < 2 ^ 16 :=
    (Nat.mod_lt _ (Nat.two_pow_pos len)).trans_le (Nat.pow_le_pow_right (by decide) h)
  simp only [elemField, BitVec.toNat_setWidth, BitVec.extractLsb'_toNat, Nat.shiftRight_eq_div_pow,
    Nat.mod_eq_of_lt hlt]

/-- Joining bit fields that do not overlap is addition. -/
theorem toNat_or_shiftLeft {n k : Nat} {x y : BitVec n} (hx : x.toNat < 2 ^ k) (hy : y.toNat * 2 ^ k < 2 ^ n) :
    (x ||| y <<< k).toNat = x.toNat + 2 ^ k * y.toNat := by
  rw [BitVec.toNat_or, BitVec.toNat_shiftLeft, Nat.shiftLeft_eq, Nat.mod_eq_of_lt hy, Nat.or_comm,
    Nat.mul_comm, ← Nat.two_pow_add_eq_or_of_lt hx, Nat.add_comm]

theorem and_fifteen_toNat (v : Elem) : (v &&& 0x000F#16).toNat = v.toNat % 16 := by
  rw [BitVec.toNat_and]
  exact Nat.and_two_pow_sub_one_eq_mod v.toNat 4

/-! ## The packers -/

theorem pack4_toNat (lo hi : Elem) : (pack4 lo hi).toNat = lo.toNat % 16 + 16 * (hi.toNat % 16) := by
  have hlo := and_fifteen_toNat lo
  have hhi := and_fifteen_toNat hi
  rw [pack4, lowByte_toNat, toNat_or_shiftLeft (by omega) (by omega), hlo, hhi]
  omega

theorem pack8_toNat (v : Elem) : (pack8 v).toNat = v.toNat % 256 := lowByte_toNat v

theorem pack12_toNat (a b : Elem) : (pack12 a b).map BitVec.toNat =
    [a.toNat % 256, a.toNat / 256 % 16 + 16 * (b.toNat % 16), b.toNat / 16 % 256] := by
  have ha := elemField_toNat a 8 (len := 4) (by decide)
  have hb := elemField_toNat b 0 (len := 4) (by decide)
  have hmid := toNat_or_shiftLeft (k := 4) (x := elemField a 8 4) (y := elemField b 0 4) (by omega) (by omega)
  simp only [pack12, List.map_cons, List.map_nil, lowByte_toNat, hmid, ha, hb, elemField_toNat a 0 (len := 8) (by decide),
    elemField_toNat b 4 (len := 8) (by decide), List.cons.injEq, and_true]
  omega

theorem pack16_toNat (v : Elem) : (pack16 v).map BitVec.toNat = [v.toNat % 256, v.toNat / 256] := by
  have hv := v.isLt
  simp only [pack16, List.map_cons, List.map_nil, lowByte_toNat, elemField_toNat v _ (len := 8) (by decide),
    List.cons.injEq, and_true]
  omega

/-- Settles O17: each packer joins bit fields that do not overlap, so its bytes are sums of their shifted fields. -/
theorem packersByTheirRules : Obligations.PackersByTheirRules :=
  ⟨pack4_toNat, fun v hv => (pack8_toNat v).trans (Nat.mod_eq_of_lt hv), pack12_toNat, pack16_toNat, by decide⟩

/-! ## The unpackers -/

theorem unpack4_toNat (x : Byte) (i : Nat) :
    (unpack4 x i).toNat = if i % 2 = 0 then x.toNat % 16 else x.toNat / 16 := by
  have hx := x.isLt
  have hw : (x.setWidth 16).toNat = x.toNat := BitVec.toNat_setWidth_of_le (by decide)
  unfold unpack4
  split
  · rw [elemField_toNat _ 0 (by decide), hw]; omega
  · rw [elemField_toNat _ 4 (by decide), hw]; omega

theorem unpack8_toNat (x : Byte) : (unpack8 x).toNat = x.toNat := BitVec.toNat_setWidth_of_le (by decide)

theorem le16_toNat (x y : Byte) : (le16 x y).toNat = x.toNat + 256 * y.toNat := by
  have hw (b : Byte) : (b.setWidth 16).toNat = b.toNat := BitVec.toNat_setWidth_of_le (by decide)
  have hx := x.isLt
  have hy := y.isLt
  rw [le16, toNat_or_shiftLeft (by rw [hw]; omega) (by rw [hw]; omega), hw, hw]
  omega

theorem le24_toNat (x y z : Byte) : (le24 x y z).toNat = x.toNat + 256 * y.toNat + 65536 * z.toNat := by
  have hw (b : Byte) : (b.setWidth 24).toNat = b.toNat := BitVec.toNat_setWidth_of_le (by decide)
  have hx := x.isLt
  have hy := y.isLt
  have hz := z.isLt
  have hlow : (x.setWidth 24 ||| y.setWidth 24 <<< 8).toNat = x.toNat + 256 * y.toNat := by
    rw [toNat_or_shiftLeft (by rw [hw]; omega) (by rw [hw]; omega), hw, hw]
    omega
  rw [le24, toNat_or_shiftLeft (by omega) (by rw [hw]; omega), hlow, hw]
  omega

theorem unpack12_toNat (x y z : Byte) (i : Nat) : (unpack12 x y z i).toNat =
    if i % 2 = 0 then (x.toNat + 256 * y.toNat + 65536 * z.toNat) % 4096
    else (x.toNat + 256 * y.toNat + 65536 * z.toNat) / 4096 := by
  have hword := (le24 x y z).isLt
  rw [← le24_toNat]
  unfold unpack12
  split <;> simp only [BitVec.toNat_setWidth, BitVec.extractLsb'_toNat, Nat.shiftRight_eq_div_pow] <;> omega

/-- Settles O18: the field at bit k of a word is the word divided by 2^k, cut to the field's width. -/
theorem unpackersByTheirRules : Obligations.UnpackersByTheirRules :=
  ⟨unpack4_toNat, unpack8_toNat, unpack12_toNat, le16_toNat, by decide⟩

/-! ## Each unpacker undoes its packer, up to truncation (40_bitfield_units.md R69) -/

theorem truncElem_toNat (w : Width) (v : Elem) : (truncElem w v).toNat = v.toNat % 2 ^ w.bits := by
  have hbits : w.bits ≤ 16 := by cases w <;> decide
  rw [truncElem, elemField_toNat v 0 hbits, Nat.pow_zero, Nat.div_one]

theorem truncElem_toNat_eq_and (w : Width) (v : Elem) :
    (truncElem w v).toNat = v.toNat &&& ((1 <<< w.bits) - 1) := by
  rw [truncElem_toNat, Nat.one_shiftLeft, Nat.and_two_pow_sub_one_eq_mod]

theorem unpack4_pack4 (a c : Elem) (i : Nat) :
    unpack4 (pack4 a c) i = truncElem .w4 (if i % 2 = 0 then a else c) := by
  apply BitVec.eq_of_toNat_eq
  rw [unpack4_toNat, pack4_toNat, truncElem_toNat, Width.bits]
  split <;> omega

theorem unpack8_pack8 (a : Elem) : unpack8 (pack8 a) = truncElem .w8 a := by
  apply BitVec.eq_of_toNat_eq
  rw [unpack8_toNat, pack8_toNat, truncElem_toNat]
  rfl

theorem unpack12_of_pack12 {a c : Elem} {x y z : Byte} (h : pack12 a c = [x, y, z]) (i : Nat) :
    unpack12 x y z i = truncElem .w12 (if i % 2 = 0 then a else c) := by
  have hbytes := pack12_toNat a c
  simp only [h, List.map_cons, List.map_nil, List.cons.injEq, and_true] at hbytes
  obtain ⟨hx, hy, hz⟩ := hbytes
  apply BitVec.eq_of_toNat_eq
  rw [unpack12_toNat, truncElem_toNat, Width.bits]
  split <;> omega

theorem unpack16_of_pack16 {a : Elem} {x y : Byte} (h : pack16 a = [x, y]) : unpack16 x y = truncElem .w16 a := by
  have hbytes := pack16_toNat a
  simp only [h, List.map_cons, List.map_nil, List.cons.injEq, and_true] at hbytes
  obtain ⟨hx, hy⟩ := hbytes
  apply BitVec.eq_of_toNat_eq
  rw [unpack16, le16_toNat, truncElem_toNat, Width.bits]
  omega

/-! ## The image in memory -/

/-- A reader of single bytes gives `bs` from address `b` on. -/
def HoldsAt (read : Nat → Byte) (b : Nat) (bs : List Byte) : Prop :=
  ∀ (j : Nat) (hj : j < bs.length), read (b + j) = bs[j]

@[simp] theorem holdsAt_nil (read : Nat → Byte) (b : Nat) : HoldsAt read b [] := by
  intro j hj
  cases hj

@[simp] theorem holdsAt_cons (read : Nat → Byte) (b : Nat) (x : Byte) (bs : List Byte) :
    HoldsAt read b (x :: bs) ↔ read b = x ∧ HoldsAt read (b + 1) bs := by
  constructor
  · intro h
    refine ⟨h 0 (by simp), fun j hj => ?_⟩
    have hj' := h (j + 1) (by simpa using hj)
    rwa [Nat.add_assoc, Nat.add_comm 1 j]
  · rintro ⟨hx, hbs⟩ j hj
    cases j with
    | zero => exact hx
    | succ j =>
      have hj' := hbs j (by simpa using hj)
      rwa [Nat.add_assoc, Nat.add_comm 1 j] at hj'

theorem holdsAt_append (read : Nat → Byte) (b : Nat) (bs cs : List Byte) :
    HoldsAt read b (bs ++ cs) ↔ HoldsAt read b bs ∧ HoldsAt read (b + bs.length) cs := by
  induction bs generalizing b with
  | nil => simp
  | cons x bs ih =>
    rw [List.cons_append, holdsAt_cons, ih, holdsAt_cons, and_assoc, List.length_cons, Nat.add_assoc, Nat.add_comm 1]

/-- Every width's image is made of the images of consecutive pairs. -/
theorem image_cons_cons (a c : Elem) (rest : List Elem) (w : Width) :
    image (a :: c :: rest) w = image [a, c] w ++ image rest w := by
  cases w <;> simp [image, image4, image12]

/-- Two indices on, the locator is one pair's image on and the unpacker takes the same half. -/
theorem decodeAt_add_two (read : Nat → Byte) (b i : Nat) (w : Width) :
    decodeAt read b (i + 2) w = decodeAt read (b + size 2 w) i w := by
  have hoff : b + off (i + 2) w = b + size 2 w + off i w := by cases w <;> simp only [off, size] <;> omega
  cases w <;> simp only [decodeAt, hoff, unpack4, unpack12, Nat.add_mod_right]

theorem holdsAt_pack12 (read : Nat → Byte) (b : Nat) (a c : Elem) :
    HoldsAt read b (pack12 a c) ↔ pack12 a c = [read b, read (b + 1), read (b + 2)] := by
  simp [pack12, eq_comm]

theorem holdsAt_pack16 (read : Nat → Byte) (b : Nat) (a : Elem) :
    HoldsAt read b (pack16 a) ↔ pack16 a = [read b, read (b + 1)] := by
  simp [pack16, eq_comm]

/-- The first element's unit comes first, whatever its partner is. -/
theorem image4_cons (a : Elem) (rest : List Elem) : ∃ c tail, image4 (a :: rest) = pack4 a c :: tail := by
  cases rest with
  | nil => exact ⟨0, [], rfl⟩
  | cons c rest => exact ⟨c, image4 rest, rfl⟩

/-- The first element's trio comes first, whatever its partner is. -/
theorem image12_cons (a : Elem) (rest : List Elem) : ∃ c tail, image12 (a :: rest) = pack12 a c ++ tail := by
  cases rest with
  | nil => exact ⟨0, [], rfl⟩
  | cons c rest => exact ⟨c, image12 rest, rfl⟩

section decode
variable {read : Nat → Byte} {b : Nat} {w : Width} {a c : Elem} {rest : List Elem}

/-- Index 0 is read from the first unit, at its even half. -/
theorem decodeAt_image_zero (h : HoldsAt read b (image (a :: rest) w)) : decodeAt read b 0 w = truncElem w a := by
  cases w with
  | w4 =>
    obtain ⟨c, tail, himg⟩ := image4_cons a rest
    rw [image, himg, holdsAt_cons] at h
    obtain ⟨hbyte, -⟩ := h
    exact (congrArg (unpack4 · 0) hbyte).trans (unpack4_pack4 a c 0)
  | w8 =>
    rw [image, List.map_cons, holdsAt_cons] at h
    obtain ⟨hbyte, -⟩ := h
    exact (congrArg unpack8 hbyte).trans (unpack8_pack8 a)
  | w12 =>
    obtain ⟨c, tail, himg⟩ := image12_cons a rest
    rw [image, himg, holdsAt_append, holdsAt_pack12] at h
    obtain ⟨htrio, -⟩ := h
    exact unpack12_of_pack12 htrio 0
  | w16 =>
    rw [image, List.flatMap_cons, holdsAt_append, holdsAt_pack16] at h
    obtain ⟨hbytes, -⟩ := h
    exact unpack16_of_pack16 hbytes

/-- Index 1 is the odd half of the first unit where units are shared, and starts the second unit elsewhere. -/
theorem decodeAt_image_one (h : HoldsAt read b (image (a :: c :: rest) w)) : decodeAt read b 1 w = truncElem w c := by
  cases w with
  | w4 =>
    rw [image, image4, holdsAt_cons] at h
    obtain ⟨hbyte, -⟩ := h
    exact (congrArg (unpack4 · 1) hbyte).trans (unpack4_pack4 a c 1)
  | w8 =>
    rw [image, List.map_cons, holdsAt_cons] at h
    obtain ⟨-, hrest⟩ := h
    exact decodeAt_image_zero (w := .w8) hrest
  | w12 =>
    rw [image, image12, holdsAt_append, holdsAt_pack12] at h
    obtain ⟨htrio, -⟩ := h
    exact unpack12_of_pack12 htrio 1
  | w16 =>
    rw [image, List.flatMap_cons, holdsAt_append] at h
    obtain ⟨-, hrest⟩ := h
    exact decodeAt_image_zero (w := .w16) hrest

end decode

/-- Decoding an element of an image gives its value, truncated (40_bitfield_units.md R76): the first pair is read where
the image starts, and every later index is two less in the image of the rest. -/
theorem decodeAt_image {read : Nat → Byte} {w : Width} (v : List Elem) (b i : Nat) (hi : i < v.length)
    (h : HoldsAt read b (image v w)) : decodeAt read b i w = truncElem w v[i] := by
  match v, i with
  | a :: rest, 0 => exact decodeAt_image_zero h
  | a :: c :: rest, 1 => exact decodeAt_image_one h
  | a :: c :: rest, i + 2 =>
    rw [image_cons_cons, holdsAt_append, length_image] at h
    obtain ⟨-, hrest⟩ := h
    rw [decodeAt_add_two]
    exact decodeAt_image rest (b + size 2 w) i (by simpa using hi) hrest

/-- Settles O22: truncation is the mask, and the packers truncate by themselves, so the bound on narrow sources is not
needed. -/
theorem imageRoundTrip : Obligations.ImageRoundTrip := by
  intro v w m b i hi _ hmem
  rw [decodeAt_image v b i hi hmem, truncElem_toNat_eq_and]

end Sys2Proof.Machine
end

section
/-! SUPPORT. SIZE in full (41_size.md R79): its two ends at a legal width, and the counts whose size needs 33 bits. -/

namespace Sys2Proof.Machine

/-- A success's completion changes STATUS as 60_exceptions.md R88 says and nothing else. -/
theorem complete_none_eq_doneState (s : State) : complete .none s = doneState s := by
  have hstatus : s.status.completed .none = { busy := false, errSeen := s.status.errSeen, errCode := 0 } := by
    simp [Status.completed, errorCodeBits]
  rw [complete, hstatus]
  rfl

/-- SIZE takes every width. -/
theorem legalWidth_size {b : BitVec 8} {w : Width} (hb : b.toNat = w.bits) : legalWidth .size b = some w :=
  (legalWidth_eq_some .size b w).2 ⟨hb, rfl⟩

section legal
variable {b : BitVec 8} {w : Width} {s : State}

theorem sizeBody_of_fits (hb : b.toNat = w.bits) (hz : size s.n.toNat w < 2 ^ 32) :
    sizeBody b s = .ok (s.withRes0 (BitVec.ofNat 32 (size s.n.toNat w))) := by
  simp only [sizeBody, legalWidth_size hb, if_neg (Nat.not_le.2 hz)]

theorem sizeBody_of_overflows (hb : b.toNat = w.bits) (hz : 2 ^ 32 ≤ size s.n.toNat w) :
    sizeBody b s = .error .sizeOverflow := by
  simp only [sizeBody, legalWidth_size hb, if_pos hz]

/-- A size below 2^32 goes to RES0, and SIZE succeeds. -/
theorem exec_size_of_fits (hb : b.toNat = w.bits) (hz : size s.n.toNat w < 2 ^ 32) :
    exec (.size b) s = .next (doneState (s.withRes0 (BitVec.ofNat 32 (size s.n.toNat w)))) := by
  rw [exec_eq_finish, instrBody, sizeBody_of_fits hb hz, finish_ok, complete_none_eq_doneState]

/-- A size of 2^32 or more ends SIZE with SIZE_OVERFLOW and no other effect. -/
theorem exec_size_of_overflows (hb : b.toNat = w.bits) (hz : 2 ^ 32 ≤ size s.n.toNat w) :
    exec (.size b) s = .next (failedState 3 s) := by
  have he : ErrorCode.sizeOverflow ≠ .none := by decide
  rw [exec_eq_finish, instrBody, sizeBody_of_overflows hb hz, finish_error, complete_eq_failedState he]
  rfl

end legal

/-- A count register's size overflows at the two wide widths only: a narrow element takes at most one byte, and
2863311531 is the least count whose trios fill 2^32 bytes. -/
theorem size_overflows_iff (w : Width) {n : Nat} (hn : n < 2 ^ 32) :
    2 ^ 32 ≤ size n w ↔ (w = .w16 ∧ 2 ^ 31 ≤ n) ∨ (w = .w12 ∧ 2863311531 ≤ n) := by
  cases w with
  | w4 | w8 | w12 | w16 => simp [size]; omega

/-- Settles O15: SIZE's body has one end for each of the three cases of width and size, and the rest is about the size
function alone. -/
theorem sizeCommand : Obligations.SizeCommand := by
  obtain ⟨-, hzero, -⟩ := sizeFunctionByItsFormulas
  exact ⟨fun _ _ _ => exec_size_of_fits, fun _ _ _ => exec_size_of_overflows,
    fun b s hb => exec_of_illegalBpk (i := .size b) hb s, fun w _ => size_overflows_iff w, hzero, by decide⟩

end Sys2Proof.Machine
end

section
/-! SUPPORT. The encoders' checks, each under the checks before it, and the end each of them gives an encode
(42_encoder.md R80). -/

namespace Sys2Proof.Machine

/-- ENC8 takes the two narrow widths (30_encoding.md R58). -/
theorem legalWidth_enc8 {b : BitVec 8} {w : Width} (hb : b.toNat = w.bits) (hw : w = .w4 ∨ w = .w8) :
    legalWidth .enc8 b = some w :=
  (legalWidth_eq_some .enc8 b w).2 ⟨hb, by rcases hw with rfl | rfl <;> rfl⟩

/-- ENC16 takes the two wide widths (30_encoding.md R58). -/
theorem legalWidth_enc16 {b : BitVec 8} {w : Width} (hb : b.toNat = w.bits) (hw : w = .w12 ∨ w = .w16) :
    legalWidth .enc16 b = some w :=
  (legalWidth_eq_some .enc16 b w).2 ⟨hb, by rcases hw with rfl | rfl <;> rfl⟩

theorem instrBody_enc8 {b : BitVec 8} {w : Width} (hl : legalWidth .enc8 b = some w) (s : State) :
    instrBody (.enc8 b) s =
      encodeBody s (checkedCells (encCheck w s.n.toNat s) (destCells s (image (sourceOf8 s) w))) := by
  simp only [instrBody, enc8Cells, hl]

theorem instrBody_enc16 {b : BitVec 8} {w : Width} (hl : legalWidth .enc16 b = some w) (s : State) :
    instrBody (.enc16 b) s =
      encodeBody s (checkedCells (encCheck w (2 * s.n.toNat) s) (destCells s (image (sourceOf16 s) w))) := by
  simp only [instrBody, enc16Cells, hl]

theorem rangesOverlap_eq_true (a lenA b lenB : Nat) :
    rangesOverlap a lenA b lenB = true ↔ 0 < lenA ∧ 0 < lenB ∧ a < b + lenB ∧ b < a + lenA := by
  simp only [rangesOverlap, Bool.and_eq_true, decide_eq_true_eq, and_assoc]

/-- The machine's check passes exactly when the six conditions of 42_encoder.md R80 do. -/
theorem encCheck_eq_none_iff_encodeMayRun (w : Width) (len : Nat) (s : State) :
    encCheck w len s = none ↔ EncodeMayRun w len s := by
  rw [encCheck_eq_none, inMem_eq_true, inMem_eq_true, ← Bool.not_eq_true, rangesOverlap_eq_true, EncodeMayRun]

section checks
variable {w : Width} {len : Nat} {s : State}

/-- Empty ranges are never checked, so an encode of nothing may run (42_encoder.md R80). -/
theorem encodeMayRun_of_count_zero (hn : s.n = 0) (hlen : len = 0) : EncodeMayRun w len s := by
  obtain ⟨-, hzero, -⟩ := sizeFunctionByItsFormulas
  have hsize : size s.n.toNat w = 0 := by rw [hn]; exact hzero w
  simp [EncodeMayRun, hsize, hlen]

theorem encCheck_of_sizeOverflow (hz : 2 ^ 32 ≤ size s.n.toNat w) : encCheck w len s = some .sizeOverflow := by
  simp only [encCheck, if_pos hz]

/-! In the rest the size fits 32 bits. -/

variable (hz : size s.n.toNat w < 2 ^ 32)
include hz

theorem encCheck_of_bufferTooSmall (hb : s.buflen.toNat < size s.n.toNat w) :
    encCheck w len s = some .bufferTooSmall := by
  simp only [encCheck, if_neg (Nat.not_le.2 hz), if_pos hb]

theorem encCheck_of_sourceOutside (hb : size s.n.toNat w ≤ s.buflen.toNat)
    (hsrc : inMem s.memSize s.src.toNat len = false) : encCheck w len s = some .accessFault := by
  simp only [encCheck, if_neg (Nat.not_le.2 hz), if_neg (Nat.not_lt.2 hb), if_pos hsrc]

theorem encCheck_of_destinationOutside (hb : size s.n.toNat w ≤ s.buflen.toNat)
    (hsrc : inMem s.memSize s.src.toNat len = true)
    (hdst : inMem s.memSize s.buf.toNat (size s.n.toNat w) = false) : encCheck w len s = some .accessFault := by
  simp only [encCheck, if_neg (Nat.not_le.2 hz), if_neg (Nat.not_lt.2 hb), hsrc, Bool.true_eq_false, if_false,
    if_pos hdst]

theorem encCheck_of_overlap (hb : size s.n.toNat w ≤ s.buflen.toNat)
    (hsrc : inMem s.memSize s.src.toNat len = true)
    (hdst : inMem s.memSize s.buf.toNat (size s.n.toNat w) = true)
    (hlap : rangesOverlap s.src.toNat len s.buf.toNat (size s.n.toNat w) = true) :
    encCheck w len s = some .overlap := by
  simp only [encCheck, if_neg (Nat.not_le.2 hz), if_neg (Nat.not_lt.2 hb), hsrc, hdst, Bool.true_eq_false,
    if_false, if_pos hlap]

end checks

section encode
variable {i : Instr} {w : Width} {len : Nat} {cells : List Host.Cell} {s : State}
  (hbody : instrBody i s = encodeBody s (checkedCells (encCheck w len s) cells))
include hbody

/-- An encode whose check reports an error ends with it and no other effect (60_exceptions.md R88). -/
theorem exec_of_encCheck_some {e : ErrorCode} (hc : encCheck w len s = some e) :
    exec i s = .next (failedState (errorCodeBits e) s) := by
  have he : e ≠ .none := fun h => encCheck_ne_some_none w len s (h ▸ hc)
  rw [exec_eq_finish, hbody, hc, checkedCells, encodeBody, finish_error, complete_eq_failedState he]

/-- An encode whose check passes writes its cells and completes. -/
theorem exec_of_encCheck_none (hc : encCheck w len s = none) :
    exec i s = .next (doneState (s.withMem (s.mem.writeCells cells))) := by
  rw [exec_eq_finish, hbody, hc, checkedCells, encodeBody, finish_ok, complete_none_eq_doneState]

/-- Each error's conditions select its branch of the check, for any command whose body is an encode so checked. -/
theorem encoderErrorsInOrder_of_instrBody (hlen : s.n = 0 → len = 0) : EncoderErrorsInOrder i w len s := by
  have hfails {e : ErrorCode} (hc : encCheck w len s = some e) := exec_of_encCheck_some hbody hc
  refine ⟨fun hz => hfails (encCheck_of_sizeOverflow hz),
    fun hz hb => hfails (encCheck_of_bufferTooSmall hz hb),
    fun hz hb hne hout => hfails (encCheck_of_sourceOutside hz hb ((inMem_eq_false ..).2 ⟨hne, hout⟩)),
    fun hz hb hsrc hne hout => hfails (encCheck_of_destinationOutside hz hb ((inMem_eq_true ..).2 hsrc)
      ((inMem_eq_false ..).2 ⟨hne, hout⟩)),
    fun hz hb hsrc hdst h0 h1 h2 h3 => hfails (encCheck_of_overlap hz hb ((inMem_eq_true ..).2 hsrc)
      ((inMem_eq_true ..).2 hdst) ((rangesOverlap_eq_true ..).2 ⟨h0, h1, h2, h3⟩)),
    fun hrun => ⟨_, exec_of_encCheck_none hbody ((encCheck_eq_none_iff_encodeMayRun w len s).2 hrun)⟩,
    fun hn => encodeMayRun_of_count_zero hn (hlen hn)⟩

end encode

/-- Settles O26: both encoders run the one check, on n and on 2n source bytes. -/
theorem encoderChecksInOrder : Obligations.EncoderChecksInOrder :=
  ⟨fun _ _ s hb hw => encoderErrorsInOrder_of_instrBody (instrBody_enc8 (legalWidth_enc8 hb hw) s)
      fun hn => by simp [hn],
    fun _ _ s hb hw => encoderErrorsInOrder_of_instrBody (instrBody_enc16 (legalWidth_enc16 hb hw) s)
      fun hn => by simp [hn]⟩

end Sys2Proof.Machine
end

section
/-! SUPPORT. DEC in full (43_scalar_decoder.md R84): a decoded value in arithmetic on the located bytes, the decoders'
two checks, and the ends each of them gives DEC. -/

namespace Sys2Proof.Machine

/-! ## The decoded value in arithmetic -/

theorem decodeAt_toNat (m : Memory) (base i : Nat) (w : Width) :
    (decodeAt m.read base i w).toNat = arithmeticValue m base i w := by
  cases w with
  | w4 => exact unpack4_toNat _ i
  | w8 => exact unpack8_toNat _
  | w12 => exact unpack12_toNat _ _ _ i
  | w16 =>
    rw [arithmeticValue, Nat.mul_comm 2 i]
    exact le16_toNat _ _

/-- A decoded value fits its width (10_state.md R28): it is one field of the bytes it is read from. -/
theorem arithmeticValue_lt (m : Memory) (base i : Nat) (w : Width) : arithmeticValue m base i w < 2 ^ w.bits := by
  have hbyte (a : Nat) : (m.read a).toNat < 256 := (m.read a).isLt
  cases w with
  | w4 =>
    have h0 := hbyte (base + i / 2)
    simp only [arithmeticValue, Width.bits]
    split <;> omega
  | w8 => exact hbyte (base + i)
  | w12 =>
    have h0 := hbyte (base + i / 2 * 3)
    have h1 := hbyte (base + i / 2 * 3 + 1)
    have h2 := hbyte (base + i / 2 * 3 + 2)
    simp only [arithmeticValue, Width.bits]
    split <;> omega
  | w16 =>
    have h0 := hbyte (base + 2 * i)
    have h1 := hbyte (base + 2 * i + 1)
    simp only [arithmeticValue, Width.bits]
    omega

/-- A result register holds an element's value, zero-extended (10_state.md R28). -/
theorem resultWord_eq_ofNat (v : Elem) : resultWord v = BitVec.ofNat 32 v.toNat := by
  rw [resultWord, BitVec.ofNat_toNat]

/-- A result whose own bytes nobody has written meanwhile is the arithmetic value of what memory holds. -/
theorem resultWord_decValue_exact {s : State} {i : Nat} {w : Width} (h : IndexUnraced s i w) (slot : Nat) :
    resultWord (decValue s slot i w) = BitVec.ofNat 32 (arithmeticValue s.mem s.buf.toNat i w) := by
  rw [resultWord_eq_ofNat, decValue_exact h slot, decodeAt_toNat]

/-! ## The decoders' checks -/

/-- Every index needs at least one byte, so a decoder's memory range is never empty. -/
theorem extent_pos (i : Nat) (w : Width) : 0 < extent i w := by
  cases w <;> exact Nat.succ_pos _

section checks
variable {e : Nat} {s : State}

theorem decCheck_of_outOfRange (hlen : s.buflen.toNat < e) : decCheck e s = some .outOfRange := by
  rw [decCheck, if_pos hlen]

theorem decCheck_of_accessFault (hlen : e ≤ s.buflen.toNat) (hpos : 0 < e) (hmem : s.memSize < s.buf.toNat + e) :
    decCheck e s = some .accessFault := by
  have hout : inMem s.memSize s.buf.toNat e = false := (inMem_eq_false ..).2 ⟨hpos.ne', hmem⟩
  rw [decCheck, if_neg (Nat.not_lt.2 hlen), if_pos hout]

theorem decCheck_of_decodeMayRun (h : DecodeMayRun e s) : decCheck e s = none := by
  obtain ⟨hlen, hmem⟩ := h
  exact (decCheck_eq_none e s).2 ⟨hlen, (inMem_eq_true ..).2 (.inr hmem)⟩

end checks

/-! ## DEC -/

section dec
variable {b : BitVec 8} {w : Width} {s : State} (hb : b.toNat = w.bits)
include hb

/-- DEC takes every width (30_encoding.md R58). -/
theorem legalWidth_dec : legalWidth .dec b = some w :=
  (legalWidth_eq_some .dec b w).2 ⟨hb, rfl⟩

/-- The duty of 70_reset_and_hazards.md R112 covers the bytes of DEC's index once its checks pass. -/
theorem Unraced.indexUnraced_dec (h : Unraced (.dec b) s) (hc : decCheck (extent s.idx0.toNat w) s = none) :
    IndexUnraced s s.idx0.toNat w := by
  intro a hlo hhi
  refine h a (.inl ?_)
  rw [readFootprint_dec (legalWidth_dec hb) hc]
  exact (mem_decodeFootprint hb s _ a).2 ⟨hlo, hhi⟩

/-- A DEC whose check reports an error ends with it and no other effect (60_exceptions.md R88). -/
theorem exec_dec_of_decCheck_some {e : ErrorCode} (hc : decCheck (extent s.idx0.toNat w) s = some e) :
    exec (.dec b) s = .next (failedState (errorCodeBits e) s) := by
  have he : e ≠ .none := fun h => decCheck_ne_some_none _ s (h ▸ hc)
  have hbody : decBody b s = .error e := by simp only [decBody, legalWidth_dec hb, hc]
  rw [exec_eq_finish, instrBody, hbody, finish_error, complete_eq_failedState he]

/-- A DEC whose check passes puts the decoded value in RES0 and completes. -/
theorem exec_dec_of_decCheck_none (hc : decCheck (extent s.idx0.toNat w) s = none) :
    exec (.dec b) s = .next (doneState (s.withRes0 (resultWord (decValue s 0 s.idx0.toNat w)))) := by
  have hbody : decBody b s = .ok (s.withRes0 (resultWord (decValue s 0 s.idx0.toNat w))) := by
    simp only [decBody, legalWidth_dec hb, hc]
  rw [exec_eq_finish, instrBody, hbody, finish_ok, complete_none_eq_doneState]

/-- A DEC that may run and that nobody races with gives the arithmetic value of the located bytes. -/
theorem exec_dec_of_decodeMayRun (hunraced : Unraced (.dec b) s) (hrun : DecodeMayRun (extent s.idx0.toNat w) s) :
    exec (.dec b) s = .next (doneState (s.withRes0
      (BitVec.ofNat 32 (arithmeticValue s.mem s.buf.toNat s.idx0.toNat w)))) := by
  have hc := decCheck_of_decodeMayRun hrun
  rw [exec_dec_of_decCheck_none hb hc, resultWord_decValue_exact (hunraced.indexUnraced_dec hb hc)]

end dec

/-- Settles O31: each clause's conditions select one end of DEC, and the value's bound is about the bytes alone. -/
theorem decCommand : Obligations.DecCommand :=
  ⟨fun _ _ _ hunraced hb hrun => exec_dec_of_decodeMayRun hb hunraced hrun,
    fun _ _ _ hb hlen => exec_dec_of_decCheck_some hb (decCheck_of_outOfRange hlen),
    fun _ _ _ hb hlen hmem => exec_dec_of_decCheck_some hb (decCheck_of_accessFault hlen (extent_pos _ _) hmem),
    fun b s hb => exec_of_illegalBpk (i := .dec b) hb s, arithmeticValue_lt⟩

end Sys2Proof.Machine
end

section
/-! SUPPORT. DEC3 in full (44_batch_decoder.md R86): its one check at the largest index, and the ends it gives DEC3. -/

namespace Sys2Proof.Machine

theorem maxIndex_eq (s : State) : maxIndex s = max s.idx0.toNat (max s.idx1.toNat s.idx2.toNat) :=
  Nat.max_assoc ..

section dec3
variable {b : BitVec 8} {w : Width} {s : State} (hb : b.toNat = w.bits)
include hb

/-- DEC3 takes every width (30_encoding.md R58). -/
theorem legalWidth_dec3 : legalWidth .dec3 b = some w :=
  (legalWidth_eq_some .dec3 b w).2 ⟨hb, rfl⟩

/-- An index is unraced when a command that nobody races with reads all the bytes of its decode. -/
theorem Unraced.indexUnraced_of_subset {c : Instr} {i : Nat} (h : Unraced c s)
    (hsub : decodeFootprint b s i ⊆ readFootprint c s) : IndexUnraced s i w :=
  fun a hlo hhi => h a (.inl (hsub ((mem_decodeFootprint hb s i a).2 ⟨hlo, hhi⟩)))

/-- The duty of 70_reset_and_hazards.md R112 covers the bytes of DEC3's three indices once its check passes. -/
theorem Unraced.indexUnraced_dec3 (h : Unraced (.dec3 b) s) (hc : decCheck (extent (maxIndex s) w) s = none) :
    IndexUnraced s s.idx0.toNat w ∧ IndexUnraced s s.idx1.toNat w ∧ IndexUnraced s s.idx2.toNat w := by
  have hread := readFootprint_dec3 (legalWidth_dec3 hb) hc
  exact ⟨h.indexUnraced_of_subset hb (by simp [hread]), h.indexUnraced_of_subset hb (by simp [hread]),
    h.indexUnraced_of_subset hb (by simp [hread])⟩

/-- A DEC3 whose check reports an error ends with it and no other effect (60_exceptions.md R88). -/
theorem exec_dec3_of_decCheck_some {e : ErrorCode} (hc : decCheck (extent (maxIndex s) w) s = some e) :
    exec (.dec3 b) s = .next (failedState (errorCodeBits e) s) := by
  have he : e ≠ .none := fun h => decCheck_ne_some_none _ s (h ▸ hc)
  have hbody : dec3Body b s = .error e := by simp only [dec3Body, legalWidth_dec3 hb, hc]
  rw [exec_eq_finish, instrBody, hbody, finish_error, complete_eq_failedState he]

/-- A DEC3 whose check passes puts the decoded values in the RES registers, in register order, and completes. -/
theorem exec_dec3_of_decCheck_none (hc : decCheck (extent (maxIndex s) w) s = none) :
    exec (.dec3 b) s = .next (doneState (s.withRes (resultWord (decValue s 0 s.idx0.toNat w))
      (resultWord (decValue s 1 s.idx1.toNat w)) (resultWord (decValue s 2 s.idx2.toNat w)))) := by
  have hbody : dec3Body b s = .ok (s.withRes (resultWord (decValue s 0 s.idx0.toNat w))
      (resultWord (decValue s 1 s.idx1.toNat w)) (resultWord (decValue s 2 s.idx2.toNat w))) := by
    simp only [dec3Body, legalWidth_dec3 hb, hc]
  rw [exec_eq_finish, instrBody, hbody, finish_ok, complete_none_eq_doneState]

/-- A DEC3 that may run and that nobody races with gives the arithmetic values of the located bytes. -/
theorem exec_dec3_of_decodeMayRun (hunraced : Unraced (.dec3 b) s)
    (hrun : DecodeMayRun (extent (maxIndex s) w) s) :
    exec (.dec3 b) s = .next (doneState (s.withRes
      (BitVec.ofNat 32 (arithmeticValue s.mem s.buf.toNat s.idx0.toNat w))
      (BitVec.ofNat 32 (arithmeticValue s.mem s.buf.toNat s.idx1.toNat w))
      (BitVec.ofNat 32 (arithmeticValue s.mem s.buf.toNat s.idx2.toNat w)))) := by
  have hc := decCheck_of_decodeMayRun hrun
  obtain ⟨h0, h1, h2⟩ := hunraced.indexUnraced_dec3 hb hc
  rw [exec_dec3_of_decCheck_none hb hc, resultWord_decValue_exact h0, resultWord_decValue_exact h1,
    resultWord_decValue_exact h2]

end dec3

/-- Settles O32: each clause's conditions select one end of DEC3, which checks the largest of its indices. -/
theorem dec3Command : Obligations.Dec3Command := by
  unfold Obligations.Dec3Command
  simp only [← maxIndex_eq]
  exact ⟨fun _ _ _ hunraced hb hrun => exec_dec3_of_decodeMayRun hb hunraced hrun,
    fun _ _ _ hb hlen => exec_dec3_of_decCheck_some hb (decCheck_of_outOfRange hlen),
    fun _ _ _ hb hlen hmem => exec_dec3_of_decCheck_some hb (decCheck_of_accessFault hlen (extent_pos _ _) hmem),
    fun b s hb => exec_of_illegalBpk (i := .dec3 b) hb s⟩

end Sys2Proof.Machine
end

section
/-! SUPPORT. DEC3 against three DEC commands (44_batch_decoder.md R87): the ERRCODE of either decoder as a function of the
extent it checks, that ERRCODE at the largest of three extents, and the values both leave. -/

namespace Sys2Proof.Machine

/-! ## The ERRCODE of a decoder -/

/-- The ERRCODE with which a decoder that checks the extent `e` ends. -/
def decodeCode (e : Nat) (s : State) : BitVec 4 := errorCodeBits ((decCheck e s).getD .none)

/-- A command ends with that ERRCODE when the check's error fails it and the check's pass lets it succeed. -/
theorem errCode_of_ends {o : Host.Outcome State Fault Refusal} {e : Nat} {s t u : State}
    (hfails : ∀ {c}, decCheck e s = some c → o = .next (failedState (errorCodeBits c) s))
    (hpasses : decCheck e s = none → o = .next (doneState u)) (h : o = .next t) :
    t.status.errCode = decodeCode e s := by
  cases hc : decCheck e s with
  | none =>
    obtain rfl := Host.Outcome.next.inj ((hpasses hc).symm.trans h)
    simp [decodeCode, hc, doneState, errorCodeBits]
  | some c =>
    obtain rfl := Host.Outcome.next.inj ((hfails hc).symm.trans h)
    simp [decodeCode, hc, failedState]

section errCode
variable {b : BitVec 8} {w : Width} {s t : State} (hb : b.toNat = w.bits)
include hb

theorem errCode_of_exec_dec (h : exec (.dec b) s = .next t) :
    t.status.errCode = decodeCode (extent s.idx0.toNat w) s :=
  errCode_of_ends (exec_dec_of_decCheck_some hb) (exec_dec_of_decCheck_none hb) h

theorem errCode_of_exec_dec3 (h : exec (.dec3 b) s = .next t) :
    t.status.errCode = decodeCode (extent (maxIndex s) w) s :=
  errCode_of_ends (exec_dec3_of_decCheck_some hb) (exec_dec3_of_decCheck_none hb) h

end errCode

/-- The decoders' two checks in order (43_scalar_decoder.md R84): BUFLEN, then memory. -/
theorem decodeCode_eq_ite {e : Nat} (hpos : 0 < e) (s : State) :
    decodeCode e s = if s.buflen.toNat < e then 5 else if s.memSize < s.buf.toNat + e then 6 else 0 := by
  split_ifs with hlen hmem
  · rw [decodeCode, decCheck_of_outOfRange hlen]; rfl
  · rw [decodeCode, decCheck_of_accessFault (Nat.not_lt.1 hlen) hpos hmem]; rfl
  · rw [decodeCode, decCheck_of_decodeMayRun ⟨Nat.not_lt.1 hlen, Nat.not_lt.1 hmem⟩]; rfl

section codes
variable (i : Nat) (w : Width) (s : State)

theorem decodeCode_eq_zero : decodeCode (extent i w) s = 0 ↔ DecodeMayRun (extent i w) s := by
  rw [decodeCode_eq_ite (extent_pos i w), DecodeMayRun]
  split_ifs <;> simp <;> omega

theorem decodeCode_eq_five : decodeCode (extent i w) s = 5 ↔ s.buflen.toNat < extent i w := by
  rw [decodeCode_eq_ite (extent_pos i w)]
  split_ifs <;> simp <;> omega

theorem decodeCode_eq_six : decodeCode (extent i w) s = 6 ↔
    extent i w ≤ s.buflen.toNat ∧ s.memSize < s.buf.toNat + extent i w := by
  rw [decodeCode_eq_ite (extent_pos i w)]
  split_ifs <;> simp <;> omega

end codes

/-- The largest index has the largest extent (40_bitfield_units.md R74). -/
theorem extent_maxIndex (s : State) (w : Width) :
    extent (maxIndex s) w =
      max (extent s.idx0.toNat w) (max (extent s.idx1.toNat w) (extent s.idx2.toNat w)) := by
  have hmono : Monotone (extent · w) := fun _ _ h => extent_mono h w
  rw [maxIndex_eq, hmono.map_max, hmono.map_max]

/-- One check of the largest extent passes exactly when the checks of all three do. -/
theorem decodeMayRun_max {e f g : Nat} {s : State} :
    DecodeMayRun (max e (max f g)) s ↔ DecodeMayRun e s ∧ DecodeMayRun f s ∧ DecodeMayRun g s := by
  unfold DecodeMayRun
  omega

/-! ## The value a DEC of one index leaves -/

/-- The value that a successful DEC of index `i` leaves, when nobody has raced on the bytes of that index. -/
theorem res0_of_exec_dec {b : BitVec 8} {w : Width} {s t : State} (hb : b.toNat = w.bits) (i : Word)
    (hunraced : IndexUnraced s i.toNat w) (hrun : DecodeMayRun (extent i.toNat w) s)
    (h : exec (.dec b) { s with idx0 := i } = .next t) :
    t.res0 = BitVec.ofNat 32 (arithmeticValue s.mem s.buf.toNat i.toNat w) := by
  have hc : decCheck (extent i.toNat w) { s with idx0 := i } = none := decCheck_of_decodeMayRun hrun
  obtain rfl := Host.Outcome.next.inj ((exec_dec_of_decCheck_none hb hc).symm.trans h)
  exact resultWord_decValue_exact (s := { s with idx0 := i }) hunraced 0

/-- A DEC3 that succeeds leaves the values of the three DEC commands of its indices. -/
theorem results_of_exec_dec3 {b : BitVec 8} {w : Width} {s t t1 t2 t3 : State} (hunraced : Unraced (.dec3 b) s)
    (hb : b.toNat = w.bits) (hrun : DecodeMayRun (extent (maxIndex s) w) s) (h : exec (.dec3 b) s = .next t)
    (h1 : exec (.dec b) s = .next t1) (h2 : exec (.dec b) { s with idx0 := s.idx1 } = .next t2)
    (h3 : exec (.dec b) { s with idx0 := s.idx2 } = .next t3) :
    t.res0 = t1.res0 ∧ t.res1 = t2.res0 ∧ t.res2 = t3.res0 := by
  obtain ⟨u0, u1, u2⟩ := hunraced.indexUnraced_dec3 hb (decCheck_of_decodeMayRun hrun)
  obtain rfl := Host.Outcome.next.inj ((exec_dec3_of_decodeMayRun hb hunraced hrun).symm.trans h)
  rw [extent_maxIndex, decodeMayRun_max] at hrun
  obtain ⟨r0, r1, r2⟩ := hrun
  exact ⟨(res0_of_exec_dec hb s.idx0 u0 r0 h1).symm, (res0_of_exec_dec hb s.idx1 u1 r1 h2).symm,
    (res0_of_exec_dec hb s.idx2 u2 r2 h3).symm⟩

/-- Settles O33: the four commands check the extents of their indices on one state, DEC3 the largest of the three; so its
check fails on BUFLEN or on memory exactly when one of the others' does. -/
theorem batchEqualsThreeScalarDecodes : Obligations.BatchEqualsThreeScalarDecodes := by
  intro b w s t t1 t2 t3 hunraced hb h h1 h2 h3
  have hcode := errCode_of_exec_dec3 hb h
  have hcode1 := errCode_of_exec_dec hb h1
  have hcode2 : t2.status.errCode = decodeCode (extent s.idx1.toNat w) s := errCode_of_exec_dec hb h2
  have hcode3 : t3.status.errCode = decodeCode (extent s.idx2.toNat w) s := errCode_of_exec_dec hb h3
  have hmax := extent_maxIndex s w
  simp only [hcode, hcode1, hcode2, hcode3, ne_eq, decodeCode_eq_zero, decodeCode_eq_five, decodeCode_eq_six]
  refine ⟨?_, fun hrun => results_of_exec_dec3 hunraced hb hrun h h1 h2 h3, ?_, ?_⟩
  · rw [hmax, decodeMayRun_max]
  · omega
  · omega

end Sys2Proof.Machine
end

section
/-! SUPPORT. Which words spell a command (30_encoding.md R54, 60_exceptions.md R90), and how a CMD write ends (R88). -/

namespace Sys2Proof.Machine

/-! ## The fields of a word -/

theorem rsvField_eq_zero (w : Word) : rsvField w = 0 ↔ w.toNat < 65536 := by
  have hw := w.isLt
  simp only [rsvField, BitVec.toNat_eq, BitVec.extractLsb'_toNat, Nat.shiftRight_eq_div_pow, BitVec.ofNat_eq_ofNat,
    BitVec.toNat_ofNat]
  omega

theorem bpkField_toNat (w : Word) : (bpkField w).toNat = w.toNat / 256 % 256 := by
  simp [bpkField, Nat.shiftRight_eq_div_pow]

theorem opcField_toNat (w : Word) : (opcField w).toNat = w.toNat % 256 := by
  simp [opcField]

/-- The assigned OPC values are those of `opcodeCode` (30_encoding.md R56). -/
theorem eq_opcodeCode_of_opcodeOf {opc : BitVec 8} {o : Opcode} (h : opcodeOf opc = some o) : opc = opcodeCode o := by
  unfold opcodeOf at h
  split_ifs at h with h1 h2 h3 h4 h5 <;> obtain rfl := Option.some.inj h <;> assumption

/-- An OPC is unassigned only at 0 and above 5 (30_encoding.md R59). -/
theorem toNat_of_opcodeOf_eq_none {opc : BitVec 8} (h : opcodeOf opc = none) : opc.toNat = 0 ∨ 5 < opc.toNat := by
  unfold opcodeOf at h
  split_ifs at h with h1 h2 h3 h4 h5
  simp only [BitVec.toNat_eq, BitVec.ofNat_eq_ofNat, BitVec.toNat_ofNat] at h1 h2 h3 h4 h5
  omega

theorem opcodeCode_toNat_bounds (o : Opcode) : 1 ≤ (opcodeCode o).toNat ∧ (opcodeCode o).toNat ≤ 5 := by
  cases o <;> decide

@[simp] theorem instrOf_opcode (o : Opcode) (b : BitVec 8) : (instrOf o b).opcode = o := by cases o <;> rfl
@[simp] theorem instrOf_bpk (o : Opcode) (b : BitVec 8) : (instrOf o b).bpk = b := by cases o <;> rfl

/-- The words that spell no command (60_exceptions.md R90): a non-zero reserved field, or an unassigned OPC. -/
def SpellsNoCommand (w : Word) : Prop := 65536 ≤ w.toNat ∨ w.toNat % 256 = 0 ∨ 5 < w.toNat % 256

theorem spellsNoCommand_of_decode_error {w : Word} {e : DecodeError} (h : decode w = .error e) : SpellsNoCommand w := by
  unfold decode at h
  by_cases hr : rsvField w = 0
  · cases ho : opcodeOf (opcField w) with
    | none => exact .inr (opcField_toNat w ▸ toNat_of_opcodeOf_eq_none ho)
    | some o => simp [hr, ho] at h
  · rw [rsvField_eq_zero] at hr
    exact .inl (Nat.not_lt.1 hr)

/-- The fields of a word that spells a command are those of the command (30_encoding.md R54). -/
theorem fields_of_decode_ok {w : Word} {i : Instr} (h : decode w = .ok i) :
    w.toNat < 65536 ∧ w.toNat % 256 = (opcodeCode i.opcode).toNat ∧ w.toNat / 256 % 256 = i.bpk.toNat := by
  unfold decode at h
  by_cases hr : rsvField w = 0
  · cases ho : opcodeOf (opcField w) with
    | none => simp [hr, ho] at h
    | some o =>
      obtain rfl : instrOf o (bpkField w) = i := by simpa [hr, ho] using h
      rw [instrOf_opcode, instrOf_bpk, ← eq_opcodeCode_of_opcodeOf ho, opcField_toNat, bpkField_toNat]
      exact ⟨(rsvField_eq_zero w).1 hr, rfl, rfl⟩
  · rw [if_pos hr] at h
    cases h

theorem decode_error_of_spellsNoCommand {w : Word} (h : SpellsNoCommand w) : ∃ e, decode w = .error e := by
  cases hd : decode w with
  | error e => exact ⟨e, rfl⟩
  | ok i =>
    obtain ⟨hrsv, hopc, -⟩ := fields_of_decode_ok hd
    obtain ⟨hlo, hhi⟩ := opcodeCode_toNat_bounds i.opcode
    unfold SpellsNoCommand at h
    omega

/-! ## The end of a CMD write -/

theorem execute_of_decode_ok {w : Word} {i : Instr} (hd : decode w = .ok i) (h : Nat) (s : State) :
    execute h w s = exec i (startCommand h w s) := by
  simp [execute, runStarted, hd]

/-- An error's completion leaves nothing of the start but the word in CMD (60_exceptions.md R88). -/
theorem complete_startCommand {e : ErrorCode} (he : e ≠ .none) (h : Nat) (w : Word) (s : State) :
    complete e (startCommand h w s) = failedState (errorCodeBits e) (s.withCmd w) := by
  rw [complete_eq_failedState he]
  rfl

/-- A word that spells no command ends with ILLEGAL_COMMAND and no other effect (60_exceptions.md R90). -/
theorem execute_of_decode_error {w : Word} {e : DecodeError} (hd : decode w = .error e) (h : Nat) (s : State) :
    execute h w s = .next (failedState 1 (s.withCmd w)) := by
  have he : ErrorCode.illegalCommand ≠ .none := by decide
  have hraise : execute h w s = raise .illegalCommand (startCommand h w s) := by simp [execute, runStarted, hd]
  rw [hraise, raise, complete_startCommand he]
  rfl

theorem Effect.cmd_eq {s u : State} (h : Effect s u) : u.cmd = s.cmd := by cases h <;> rfl

/-- Settles O9: a CMD write ends in one of the two ways of `runStarted_cases`, and each of them completes. -/
theorem everyCommandWriteCompletes : Obligations.EveryCommandWriteCompletes := by
  refine ⟨fun h w s => ?_, fun e s => ?_, rfl⟩
  · rcases runStarted_cases (startCommand h w s) with ⟨e, he, hend⟩ | ⟨u, hu, hend⟩
    · have hcode : errorCodeBits e ≠ 0 := mt (errorCodeBits_eq_zero e).1 he
      exact ⟨_, hend, rfl, rfl, rfl, .inr ⟨hcode, complete_startCommand he h w s⟩⟩
    · refine ⟨_, hend, rfl, rfl, hu.cmd_eq, .inl ⟨rfl, ?_⟩⟩
      simp [hu.status_eq]
  · split_ifs with he
    · rw [he, complete_none_eq_doneState]
    · exact complete_eq_failedState he s

end Sys2Proof.Machine
end

section
/-! SUPPORT. The ERRCODE of a command as a function of its operands, and of a CMD write as the first error of the order of
60_exceptions.md R97. -/

namespace Sys2Proof.Machine

/-! ## The ERRCODE of a command -/

/-- The ERRCODE with which an encode of a source of `len` bytes ends. -/
def encodeCode (w : Width) (len : Nat) (s : State) : BitVec 4 := errorCodeBits ((encCheck w len s).getD .none)

/-- The encoders' checks in order (42_encoder.md R80): the size, BUFLEN, the source, the destination, their overlap. -/
theorem encodeCode_eq_ite (w : Width) (len : Nat) (s : State) :
    encodeCode w len s =
      if 2 ^ 32 ≤ size s.n.toNat w then 3
      else if s.buflen.toNat < size s.n.toNat w then 4
      else if 0 < len ∧ s.memSize < s.src.toNat + len then 6
      else if 0 < size s.n.toNat w ∧ s.memSize < s.buf.toNat + size s.n.toNat w then 6
      else if 0 < len ∧ 0 < size s.n.toNat w ∧ s.src.toNat < s.buf.toNat + size s.n.toNat w ∧
        s.buf.toNat < s.src.toNat + len then 7
      else 0 := by
  simp only [encodeCode, encCheck, inMem_eq_false, rangesOverlap_eq_true, ← Nat.pos_iff_ne_zero]
  split_ifs <;> rfl

/-- The decoders' check raises OUT_OF_RANGE and ACCESS_FAULT only (43_scalar_decoder.md R84). -/
theorem decodeCode_mem (e : Nat) (s : State) : decodeCode e s ∈ [0, 5, 6] := by
  unfold decodeCode decCheck
  split_ifs <;> decide

/-- The ERRCODE of an operation at a width it takes: its checks on the operand registers. -/
def operandCode (w : Width) (s : State) : Opcode → BitVec 4
  | .size => if 2 ^ 32 ≤ size s.n.toNat w then 3 else 0
  | .enc8 => encodeCode w s.n.toNat s
  | .enc16 => encodeCode w (2 * s.n.toNat) s
  | .dec => decodeCode (extent s.idx0.toNat w) s
  | .dec3 => decodeCode (extent (maxIndex s) w) s

section errCode
variable {b : BitVec 8} {w : Width} {s t : State}

theorem errCode_of_exec_size (hb : b.toNat = w.bits) (h : exec (.size b) s = .next t) :
    t.status.errCode = if 2 ^ 32 ≤ size s.n.toNat w then 3 else 0 := by
  split_ifs with hz
  · obtain rfl := Host.Outcome.next.inj ((exec_size_of_overflows hb hz).symm.trans h)
    rfl
  · obtain rfl := Host.Outcome.next.inj ((exec_size_of_fits hb (Nat.not_le.1 hz)).symm.trans h)
    rfl

theorem errCode_of_exec_encode {i : Instr} {len : Nat} {cells : List Host.Cell}
    (hbody : instrBody i s = encodeBody s (checkedCells (encCheck w len s) cells)) (h : exec i s = .next t) :
    t.status.errCode = encodeCode w len s := by
  cases hc : encCheck w len s with
  | none =>
    obtain rfl := Host.Outcome.next.inj ((exec_of_encCheck_none hbody hc).symm.trans h)
    simp [encodeCode, hc, doneState, errorCodeBits]
  | some e =>
    obtain rfl := Host.Outcome.next.inj ((exec_of_encCheck_some hbody hc).symm.trans h)
    simp [encodeCode, hc, failedState]

/-- At a width that the operation takes, the operand registers decide ERRCODE. -/
theorem errCode_of_legalWidth {i : Instr} (hl : legalWidth i.opcode i.bpk = some w) (h : exec i s = .next t) :
    t.status.errCode = operandCode w s i.opcode := by
  have hb : i.bpk.toNat = w.bits := ((legalWidth_eq_some _ _ w).1 hl).1
  cases i with
  | size b => exact errCode_of_exec_size hb h
  | enc8 b => exact errCode_of_exec_encode (instrBody_enc8 hl s) h
  | enc16 b => exact errCode_of_exec_encode (instrBody_enc16 hl s) h
  | dec b => exact errCode_of_exec_dec hb h
  | dec3 b => exact errCode_of_exec_dec3 hb h

end errCode

/-- A command ends with INVALID_WIDTH at a BPK outside its legal set, and else as its operands decide. -/
theorem errCode_of_exec {i : Instr} {s t : State} (h : exec i s = .next t) :
    (i.bpk.toNat ∉ legalBpk i.opcode ∧ t.status.errCode = 2) ∨
      ∃ w, legalWidth i.opcode i.bpk = some w ∧ i.bpk.toNat ∈ legalBpk i.opcode ∧
        t.status.errCode = operandCode w s i.opcode := by
  by_cases hb : i.bpk.toNat ∈ legalBpk i.opcode
  · have hlegal : (legalWidth i.opcode i.bpk).isSome = true := by
      rw [legalWidth_isSome]
      exact List.contains_iff_mem.2 hb
    obtain ⟨w, hl⟩ := Option.isSome_iff_exists.1 hlegal
    exact .inr ⟨w, hl, hb, errCode_of_legalWidth hl h⟩
  · obtain rfl := Host.Outcome.next.inj ((exec_of_illegalBpk hb s).symm.trans h)
    exact .inl ⟨hb, rfl⟩

/-! ## ILLEGAL_COMMAND -/

theorem encodeCode_ne_one (w : Width) (len : Nat) (s : State) : encodeCode w len s ≠ 1 := by
  rw [encodeCode_eq_ite]
  split_ifs <;> decide

theorem operandCode_ne_one (w : Width) (s : State) (o : Opcode) : operandCode w s o ≠ 1 := by
  cases o with
  | size =>
    simp only [operandCode]
    split_ifs <;> decide
  | enc8 | enc16 => exact encodeCode_ne_one w _ s
  | dec | dec3 => exact ne_of_mem_of_not_mem (decodeCode_mem _ s) (by decide)

/-- No command that a word spells ends with ILLEGAL_COMMAND. -/
theorem errCode_ne_one_of_exec {i : Instr} {s t : State} (h : exec i s = .next t) : t.status.errCode ≠ 1 := by
  rcases errCode_of_exec h with ⟨-, hcode⟩ | ⟨w, -, -, hcode⟩
  · rw [hcode]; decide
  · rw [hcode]; exact operandCode_ne_one w s i.opcode

theorem execute_of_spellsNoCommand {w : Word} (hw : SpellsNoCommand w) (h : Nat) (s : State) :
    execute h w s = .next (failedState 1 (s.withCmd w)) := by
  obtain ⟨e, hd⟩ := decode_error_of_spellsNoCommand hw
  exact execute_of_decode_error hd h s

/-- Settles O5: a word that spells no command fails at once, and one that spells a command runs it, which raises other
errors only. -/
theorem illegalCommandExactly : Obligations.IllegalCommandExactly := by
  refine ⟨fun h w s hw => execute_of_spellsNoCommand hw h s, fun h w s t hrun hcode => ?_,
    fun h s => execute_of_spellsNoCommand (.inl (by decide)) h s⟩
  cases hd : decode w with
  | error e => exact spellsNoCommand_of_decode_error hd
  | ok i =>
    rw [execute_of_decode_ok hd] at hrun
    exact absurd hcode (errCode_ne_one_of_exec hrun)

/-! ## SIZE_OVERFLOW -/

theorem encodeCode_eq_three (w : Width) (len : Nat) (s : State) :
    encodeCode w len s = 3 ↔ 2 ^ 32 ≤ size s.n.toNat w := by
  rw [encodeCode_eq_ite]
  by_cases hz : 2 ^ 32 ≤ size s.n.toNat w
  · rw [if_pos hz]
    exact iff_of_true rfl hz
  · rw [if_neg hz]
    refine iff_of_false ?_ hz
    split_ifs <;> decide

/-- ENC8 takes no width at which a count's size can overflow. -/
theorem size_fits_of_takesWidth_enc8 {w : Width} (hw : takesWidth .enc8 w = true) (s : State) :
    size s.n.toNat w < 2 ^ 32 := by
  rw [← Nat.not_le, size_overflows_iff w s.n.isLt]
  cases w <;> simp_all [takesWidth]

/-- The operations that raise SIZE_OVERFLOW, and when (60_exceptions.md R92). -/
theorem overflows_of_operandCode {w : Width} {s : State} {o : Opcode} (hw : takesWidth o w = true)
    (hcode : operandCode w s o = 3) : (o = .size ∨ o = .enc16) ∧ 2 ^ 32 ≤ size s.n.toNat w := by
  cases o with
  | size =>
    by_contra hz
    simp_all [operandCode]
  | enc8 =>
    have hz := (encodeCode_eq_three w _ s).1 hcode
    exact absurd hz (Nat.not_le.2 (size_fits_of_takesWidth_enc8 hw s))
  | enc16 => exact ⟨.inr rfl, (encodeCode_eq_three w _ s).1 hcode⟩
  | dec | dec3 => exact absurd hcode (ne_of_mem_of_not_mem (decodeCode_mem _ s) (by decide))

theorem overflows_of_errCode {i : Instr} {s t : State} (h : exec i s = .next t) (hcode : t.status.errCode = 3) :
    (i.opcode = .size ∨ i.opcode = .enc16) ∧ ∃ w : Width, i.bpk.toNat = w.bits ∧ 2 ^ 32 ≤ size s.n.toNat w := by
  rcases errCode_of_exec h with ⟨-, htwo⟩ | ⟨w, hl, -, hop⟩
  · rw [htwo] at hcode
    exact absurd hcode (by decide)
  · obtain ⟨hb, hw⟩ := (legalWidth_eq_some _ _ w).1 hl
    obtain ⟨ho, hz⟩ := overflows_of_operandCode hw (hop.symm.trans hcode)
    exact ⟨ho, w, hb, hz⟩

/-- Settles O16: SIZE and ENC16 check the size right after the width; ENC8's clause is a case of the converse. -/
theorem sizeOverflowRaisers : Obligations.SizeOverflowRaisers := by
  refine ⟨fun b w s hb hz => ⟨exec_size_of_overflows hb hz, fun hw => ?_⟩, fun b s t h hcode => ?_,
    fun i s t => overflows_of_errCode⟩
  · exact exec_of_encCheck_some (instrBody_enc16 (legalWidth_enc16 hb hw) s) (encCheck_of_sizeOverflow hz)
  · obtain ⟨ho, -⟩ := overflows_of_errCode h hcode
    simp [Instr.opcode] at ho

/-! ## The order of the errors -/

/-- The code of the first error of a list that applies, 0 when none does. -/
def firstCode (l : List (Bool × BitVec 4)) : BitVec 4 := ((l.find? Prod.fst).map Prod.snd).getD 0

@[simp] theorem firstCode_nil : firstCode [] = 0 := rfl

@[simp] theorem firstCode_cons (p : Bool) (c : BitVec 4) (l : List (Bool × BitVec 4)) :
    firstCode ((p, c) :: l) = if p = true then c else firstCode l := by
  cases p <;> rfl

/-- A word that spells no command meets one of the first two errors of the order. -/
theorem firstCode_of_spellsNoCommand {w : Word} (hw : SpellsNoCommand w) (s : State) (width : Width) :
    firstCode (errorsInOrder w s width) = 1 := by
  simp only [errorsInOrder, firstCode_cons, decide_eq_true_eq]
  rcases hw with hrsv | hopc
  · rw [if_pos hrsv]
  · rw [if_pos hopc, ite_self]

/-- For a word that spells a command, the order has the width next and then the command's own checks. -/
theorem firstCode_of_decode_ok {w : Word} {i : Instr} (hd : decode w = .ok i) (s : State) (width : Width) :
    firstCode (errorsInOrder w s width) =
      if i.bpk.toNat ∉ legalBpk i.opcode then 2 else operandCode width s i.opcode := by
  obtain ⟨hrsv, hopc, hbpk⟩ := fields_of_decode_ok hd
  simp only [errorsInOrder, firstCode_cons, firstCode_nil, decide_eq_true_eq, hopc, hbpk, if_neg (Nat.not_le.2 hrsv)]
  generalize i.opcode = o
  cases o with
  | size => simp [opcodeCode, legalBpk, operandCode]
  | enc8 | enc16 => simp [opcodeCode, legalBpk, operandCode, encodeCode_eq_ite]
  | dec | dec3 => simp [opcodeCode, legalBpk, operandCode, decodeCode_eq_ite, extent_pos, maxIndex_eq]

theorem Width.bits_mem (w : Width) : w.bits ∈ [4, 8, 12, 16] := by cases w <;> decide

theorem Width.bits_injective : Function.Injective Width.bits := by
  intro v w h
  cases v <;> cases w <;> simp_all [Width.bits]

/-- Settles O11: the order's first two errors are those of the decoder, its third the width check, and the others the
command's own checks, in the order in which the command makes them. -/
theorem firstErrorInPriorityOrder : Obligations.FirstErrorInPriorityOrder := by
  intro h w s t width hwidth hrun
  change t.status.errCode = firstCode (errorsInOrder w s width)
  cases hd : decode w with
  | error e =>
    rw [firstCode_of_spellsNoCommand (spellsNoCommand_of_decode_error hd)]
    obtain rfl := Host.Outcome.next.inj ((execute_of_decode_error hd h s).symm.trans hrun)
    rfl
  | ok i =>
    rw [execute_of_decode_ok hd] at hrun
    rw [firstCode_of_decode_ok hd]
    rcases errCode_of_exec hrun with ⟨hb, hcode⟩ | ⟨v, hl, hb, hcode⟩
    · rw [if_pos hb, hcode]
    · obtain ⟨-, -, hbpk⟩ := fields_of_decode_ok hd
      obtain ⟨hbits, -⟩ := (legalWidth_eq_some _ _ v).1 hl
      rw [hbpk, hbits] at hwidth
      obtain rfl := Width.bits_injective (hwidth v.bits_mem)
      rw [if_neg (not_not.2 hb), hcode]
      rfl

end Sys2Proof.Machine
end

section
/-! SUPPORT. Reset between commands (70_reset_and_hazards.md R107): what a register reads, and what stays. -/

namespace Sys2Proof.Machine

@[simp] theorem applyReset_inflight (s : State) : (applyReset s).inflight = none := rfl
@[simp] theorem applyReset_mem (s : State) : (applyReset s).mem = s.mem := rfl

/-- What reset keeps is not part of any register. -/
@[simp] theorem readReg_applyReset (r : RegName) (s : State) : readReg r (applyReset s) = readReg r State.reset := by
  cases r <;> rfl

/-- ID's value does not depend on the state, and every other register is cleared. -/
theorem readReg_reset (r : RegName) : readReg r State.reset = if r = .id then 0x42504B07 else 0 := by
  cases r with
  | id => rfl
  | status => decide
  | cmd | n | src | buf | buflen | idx0 | idx1 | idx2 | res0 | res1 | res2 => rfl

theorem step_reset {s : State} {rest : List HostEvent} (hf : s.inflight = none) (hp : s.pending = .reset :: rest) :
    step s = .next (applyReset (s.withPending rest)) :=
  step_of_idle hf hp

/-- Settles O56: a reset that meets no command in flight is `applyReset`, which gives every register its reset value and
keeps data memory. -/
theorem resetValues : Obligations.ResetValues := by
  refine ⟨readReg_reset, rfl, fun s rest hf hp => ⟨applyReset (s.withPending rest), step_reset hf hp, ?_, ?_, ?_⟩⟩
  · exact fun r => readReg_applyReset r _
  · exact applyReset_inflight _
  · exact applyReset_mem _

end Sys2Proof.Machine
end

section
/-! SUPPORT. The word of a command, in arithmetic on its fields, and the decoder as the encoder's inverse
(30_encoding.md R54 to R61). -/

namespace Sys2Proof.Machine

/-- BPK and OPC do not overlap, so the word is their sum (30_encoding.md R54). -/
theorem encode_toNat (i : Instr) : (encode i).toNat = (opcodeCode i.opcode).toNat + 256 * i.bpk.toNat := by
  have hw (b : BitVec 8) : (b.setWidth 32).toNat = b.toNat := BitVec.toNat_setWidth_of_le (by decide)
  have hopc := (opcodeCode i.opcode).isLt
  have hbpk := i.bpk.isLt
  rw [encode, BitVec.or_comm, toNat_or_shiftLeft (by rw [hw]; omega) (by rw [hw]; omega), hw, hw]
  rfl

theorem opcodeOf_opcodeCode (o : Opcode) : opcodeOf (opcodeCode o) = some o := by cases o <;> decide

theorem instrOf_opcode_bpk (i : Instr) : instrOf i.opcode i.bpk = i := by cases i <;> rfl

theorem opcField_encode (i : Instr) : opcField (encode i) = opcodeCode i.opcode := by
  have hopc := (opcodeCode i.opcode).isLt
  apply BitVec.eq_of_toNat_eq
  rw [opcField_toNat, encode_toNat]
  omega

theorem decode_encode (i : Instr) : decode (encode i) = .ok i := by
  obtain ⟨hrsv, hbpk⟩ : Laws.EncodedFields.Statement i := Laws.EncodedFields.fields_of_or i.bpk _
  simp [decode, hrsv, hbpk, opcField_encode, opcodeOf_opcodeCode, instrOf_opcode_bpk]

/-- A word is determined by its fields, so a command has one word (30_encoding.md R60). -/
theorem encode_of_decode_ok {w : Word} {i : Instr} (h : decode w = .ok i) : encode i = w := by
  obtain ⟨hrsv, hopc, hbpk⟩ := fields_of_decode_ok h
  apply BitVec.eq_of_toNat_eq
  rw [encode_toNat]
  omega

/-- Settles O2: the three fields of the encoded word are 0, the BPK and the OPC, and the OPC names the operation. -/
theorem decodeOfEncodeIsTheCommand : Obligations.DecodeOfEncodeIsTheCommand := decode_encode

/-- Settles O3: a word that decodes is the sum of its command's fields. -/
theorem encodeOfDecodedWordIsTheWord : Obligations.EncodeOfDecodedWordIsTheWord := fun _ _ => encode_of_decode_ok

/-- Settles O1: the decoder evaluated on the 16 words. -/
theorem tabledWordsDecode : Obligations.TabledWordsDecode := by
  unfold Obligations.TabledWordsDecode
  decide

theorem instrOf_mem_legalWords (o : Opcode) :
    ∀ b ∈ (legalBpk o).map (BitVec.ofNat 8), instrOf o b ∈ legalWords.map Prod.snd := by
  cases o with
  | size | enc8 | enc16 | dec | dec3 => decide

/-- The table has every well-formed command (30_encoding.md R56, R58). -/
theorem mem_legalWords_of_wellFormed {i : Instr} (h : i.wellFormed = true) : i ∈ legalWords.map Prod.snd := by
  rw [← instrOf_opcode_bpk i]
  exact instrOf_mem_legalWords i.opcode i.bpk (List.mem_map.2 ⟨i.bpk.toNat, List.contains_iff_mem.1 h, by simp⟩)

theorem isLegalWord_eq_true (w : Word) : isLegalWord w = true ↔ ∃ i, decode w = .ok i ∧ i.wellFormed = true := by
  unfold isLegalWord
  cases decode w with
  | error e => simp
  | ok i => simp

/-- Settles O4: a legal word is the encoding of a well-formed command, and the table lists each with its encoding. -/
theorem legalWordsAreTheTabledSixteen : Obligations.LegalWordsAreTheTabledSixteen := by
  intro w
  rw [isLegalWord_eq_true]
  constructor
  · rintro ⟨i, hd, hi⟩
    obtain ⟨p, hp, rfl⟩ := List.mem_map.1 (mem_legalWords_of_wellFormed hi)
    rw [← encode_of_decode_ok hd, encode_of_decode_ok (tabledWordsDecode p hp)]
    exact List.mem_map_of_mem hp
  · intro hw
    obtain ⟨p, hp, rfl⟩ := List.mem_map.1 hw
    have hwf : ∀ p ∈ legalWords, p.2.wellFormed = true := by decide
    exact ⟨p.2, tabledWordsDecode p hp, hwf p hp⟩

end Sys2Proof.Machine
end

section
/-! SUPPORT. The machine's invariant at reset and over a step (10_state.md R23 to R27, 20_memory.md R36). -/

namespace Sys2Proof.Machine

@[simp] theorem writeReg_memSize (r : RegName) (v : Word) (s : State) : (writeReg r v s).memSize = s.memSize := by
  cases r <;> rfl
theorem writeReg_cmd {r : RegName} (hr : r ≠ .cmd) (v : Word) (s : State) : (writeReg r v s).cmd = s.cmd := by
  cases r <;> simp_all [writeReg]

@[simp] theorem touch_cmd (s : State) (as : List Nat) : (s.touch as).cmd = s.cmd := by
  obtain ⟨f, hf⟩ := touch_eq s as
  rw [hf, withInflight_cmd]
@[simp] theorem touch_mem (s : State) (as : List Nat) : (s.touch as).mem = s.mem := by
  obtain ⟨f, hf⟩ := touch_eq s as
  rw [hf, withInflight_mem]
@[simp] theorem touch_memSize (s : State) (as : List Nat) : (s.touch as).memSize = s.memSize := by
  obtain ⟨f, hf⟩ := touch_eq s as
  rw [hf, withInflight_memSize]
/-- A race is recorded in the command in flight, which stays there. -/
@[simp] theorem touch_inflight (s : State) (as : List Nat) :
    (s.touch as).inflight = s.inflight.map fun f => { f with touched := as ++ f.touched } := by
  unfold State.touch
  cases hf : s.inflight <;> simp [hf]

@[simp] theorem drawn_cmd (s : State) : s.drawn.cmd = s.cmd := rfl
@[simp] theorem drawn_mem (s : State) : s.drawn.mem = s.mem := rfl
@[simp] theorem drawn_memSize (s : State) : s.drawn.memSize = s.memSize := rfl
@[simp] theorem drawn_inflight (s : State) : s.drawn.inflight = s.inflight := rfl
@[simp] theorem abandon_mem (s : State) :
    (abandon s).mem = s.mem.writeCells ((inflightCells s).filter fun c => Config.freeChoice s.draws c.1) := rfl

/-- Data memory is canonical and inside `[0, MEM_SIZE)`, and `MEM_SIZE` is legal: the part of the invariant that is not
about registers. -/
structure MemInv (m : Memory) (size : Nat) : Prop where
  canonical : m.wf = true
  inside : m.below size = true
  sizeLegal : memSizeLegal size = true

theorem Inv.memInv {s : State} (h : Inv s) : MemInv s.mem s.memSize := ⟨h.memCanonical, h.memInside, h.sizeLegal⟩

theorem MemInv.writeCells {m : Memory} {size : Nat} (h : MemInv m size) {cs : List Host.Cell}
    (hc : ∀ c ∈ cs, c.1 < size) : MemInv (m.writeCells cs) size :=
  ⟨writeCells_wf cs m h.canonical, writeCells_below cs m size h.inside hc, h.sizeLegal⟩

/-- Byte writes that pass the range check stay inside memory (20_memory.md R37). -/
theorem cellsFrom_inside {size a : Nat} {bs : List Byte} (h : inMem size a bs.length = true) :
    ∀ c ∈ cellsFrom a bs, c.1 < size := by
  intro c hc
  have hrange := mem_cellsFrom bs a c hc
  rw [inMem_eq_true] at h
  omega

theorem Effect.memInv {s u : State} (hu : Effect s u) (h : MemInv s.mem s.memSize) : MemInv u.mem u.memSize := by
  cases hu with
  | res0 v => exact h
  | res a b c => exact h
  | mem cs inside => exact h.writeCells inside

/-- A completion reports ERRCODE 0, or an error with ERRSEEN set (10_state.md R26, R27). -/
theorem statusLegal_completed (st : Status) (e : ErrorCode) : statusLegal (st.completed e) = true := by
  have hcode : (st.completed e).errCode = 0 ∨ (st.completed e).errSeen = true := by
    rw [completed_errCode, completed_errSeen, errorCodeBits_eq_zero]
    by_cases he : e = .none <;> simp [he]
  rw [statusLegal, Bool.and_eq_true, decide_eq_true_iff, Bool.or_eq_true, decide_eq_true_iff]
  exact ⟨errorCodeBits_lt e, hcode⟩

/-- With no command in flight the invariant is about memory, and STATUS with BUSY 0. -/
theorem inv_of_idle {s : State} (hmem : MemInv s.mem s.memSize) (hf : s.inflight = none) (hbusy : s.status.busy = false)
    (hst : statusLegal s.status = true) : Inv s :=
  ⟨hmem.canonical, hmem.inside, hmem.sizeLegal, by rw [hf, hbusy]; rfl, hst, by simp [inflightLegal, hf]⟩

/-- A completion brings the invariant about: of the state before, it needs memory only. -/
theorem Completes.inv {s t : State} (h : Completes s t) (hmem : MemInv s.mem s.memSize) : Inv t := by
  cases h with
  | failed e he => exact inv_of_idle hmem rfl rfl (statusLegal_completed _ e)
  | done hu => exact inv_of_idle (hu.memInv hmem) rfl rfl (statusLegal_completed _ .none)

theorem inv_applyReset {s : State} (hmem : MemInv s.mem s.memSize) : Inv (applyReset s) :=
  inv_of_idle hmem rfl rfl rfl

/-- The invariant is kept where CMD, STATUS, `MEM_SIZE` and what is in flight are, and memory is still legal. -/
theorem Inv.of_memInv {s t : State} (h : Inv s) (hcmd : t.cmd = s.cmd) (hst : t.status = s.status)
    (hf : t.inflight.isSome = s.inflight.isSome) (hmem : MemInv t.mem t.memSize) : Inv t := by
  have hnone : t.inflight.isNone = s.inflight.isNone := by rw [← Option.not_isSome, hf, Option.not_isSome]
  refine ⟨hmem.canonical, hmem.inside, hmem.sizeLegal, ?_, ?_, ?_⟩
  · rw [hst, hf, h.busyInFlight]
  · rw [hst, h.status]
  · rw [inflightLegal, hnone, hcmd]
    exact h.inflight

/-- Settles O58: reset's memory is empty, and `MEM_SIZE` is in the range of 00_scope.md R7 by its definition. -/
theorem invHoldsAtReset : Obligations.InvHoldsAtReset := by
  have hsize : memSizeLegal Config.memSize = true := by
    have hlt := Nat.mod_lt Config.memSizeIndex (Nat.two_pow_pos 32)
    rw [memSizeLegal, Bool.and_eq_true, decide_eq_true_iff, decide_eq_true_iff, Config.memSize]
    omega
  exact inv_of_idle ⟨reset_mem_wf, rfl, hsize⟩ rfl rfl rfl

/-- Settles O59: a completion and a reset bring the invariant about by themselves, a legal command that begins sets BUSY with
the in-flight record, and every other step keeps CMD, STATUS and whether a command is in flight. -/
theorem stepKeepsInv : Obligations.StepKeepsInv := by
  intro s t h hstep
  have hmem := h.memInv
  cases step_to hstep with
  | idle => exact h
  | ignored => exact h.of_memInv rfl rfl rfl hmem
  | operand r v hr => exact h.of_memInv (writeReg_cmd hr v _) (by simp) (by simp) (by simpa using hmem)
  | read => exact h.of_memInv rfl rfl rfl hmem
  | command g w _ _ _ hc => exact hc.inv hmem
  | begins g w _ _ hw => exact ⟨hmem.canonical, hmem.inside, hmem.sizeLegal, rfl, h.status, hw⟩
  | memWrite ag a bs _ _ _ ha => exact h.of_memInv rfl rfl rfl (hmem.writeCells (cellsFrom_inside ha))
  | reset => exact inv_applyReset hmem
  | completes _ _ hc => exact hc.inv hmem
  | statusRead => exact h.of_memInv rfl rfl rfl hmem
  | raceWrite ag a bs _ _ _ ha =>
    exact h.of_memInv (by simp) (by simp) (by simp) (by simpa using hmem.writeCells (cellsFrom_inside ha))
  | raceRead => exact h.of_memInv rfl rfl rfl hmem
  | abandoned =>
    refine inv_applyReset (hmem.writeCells fun c hc => ?_)
    exact inflightCells_inside _ c (List.mem_of_mem_filter hc)

end Sys2Proof.Machine
end

section
/-! SUPPORT. The packed image pair by pair: its odd tail, and the source bits it does not depend on
(40_bitfield_units.md R68, R69), and the locator's table (R74). -/

namespace Sys2Proof.Machine

/-- An image splits after any whole number of pairs. -/
theorem image_append (v u : List Elem) (w : Width) (h : v.length % 2 = 0) :
    image (v ++ u) w = image v w ++ image u w := by
  match v with
  | [] => cases w <;> rfl
  | [a] => simp at h
  | a :: c :: rest =>
    have hrest := image_append rest u w (by rw [List.length_cons, List.length_cons] at h; omega)
    rw [List.cons_append, List.cons_append, image_cons_cons, hrest, image_cons_cons a c rest, List.append_assoc]

/-- Settles O19: the even sequence is whole pairs, so the last element is packed by itself with the partner 0. -/
theorem oddTailIsZeroFilled : Obligations.OddTailIsZeroFilled := by
  intro v a hv
  have ha := a.isLt
  have hbyte : image [a] .w4 = [BitVec.ofNat 8 (a.toNat % 16)] := by
    refine congrArg (fun x => [x]) (BitVec.eq_of_toNat_eq ?_)
    simp only [pack4_toNat, BitVec.ofNat_eq_ofNat, BitVec.toNat_ofNat]
    omega
  have htrio : image [a] .w12 = [BitVec.ofNat 8 (a.toNat % 256), BitVec.ofNat 8 (a.toNat / 256 % 16), 0] := by
    refine List.map_injective_iff.2 (fun x y => BitVec.eq_of_toNat_eq) ?_
    simp only [image, image12, pack12_toNat, List.map_cons, List.map_nil, BitVec.ofNat_eq_ofNat, BitVec.toNat_ofNat,
      List.cons.injEq, and_true]
    omega
  rw [image_append v [a] .w4 hv, image_append v [a] .w12 hv, hbyte, htrio]
  exact ⟨rfl, rfl⟩

/-! ## The packers truncate -/

theorem pack4_truncElem (a c : Elem) : pack4 (truncElem .w4 a) (truncElem .w4 c) = pack4 a c := by
  apply BitVec.eq_of_toNat_eq
  simp only [pack4_toNat, truncElem_toNat, Width.bits]
  omega

theorem pack8_truncElem (a : Elem) : pack8 (truncElem .w8 a) = pack8 a := by
  apply BitVec.eq_of_toNat_eq
  simp only [pack8_toNat, truncElem_toNat, Width.bits]
  omega

theorem pack12_truncElem (a c : Elem) : pack12 (truncElem .w12 a) (truncElem .w12 c) = pack12 a c := by
  refine List.map_injective_iff.2 (fun x y => BitVec.eq_of_toNat_eq) ?_
  simp only [pack12_toNat, truncElem_toNat, Width.bits, List.cons.injEq, and_true]
  omega

theorem truncElem_w16 (a : Elem) : truncElem .w16 a = a := by
  apply BitVec.eq_of_toNat_eq
  rw [truncElem_toNat]
  exact Nat.mod_eq_of_lt a.isLt

theorem truncElem_zero (w : Width) : truncElem w 0 = 0 := by cases w <;> decide

theorem image_singleton_truncElem (a : Elem) (w : Width) : image [truncElem w a] w = image [a] w := by
  cases w with
  | w4 =>
    have hpack := pack4_truncElem a 0
    rw [truncElem_zero] at hpack
    exact congrArg (fun x => [x]) hpack
  | w8 => exact congrArg (fun x => [x]) (pack8_truncElem a)
  | w12 =>
    have hpack := pack12_truncElem a 0
    rw [truncElem_zero] at hpack
    exact hpack
  | w16 => rw [truncElem_w16]

theorem image_pair_truncElem (a c : Elem) (w : Width) : image [truncElem w a, truncElem w c] w = image [a, c] w := by
  cases w with
  | w4 => exact congrArg (fun x => [x]) (pack4_truncElem a c)
  | w8 => exact congrArg₂ (fun x y => [x, y]) (pack8_truncElem a) (pack8_truncElem c)
  | w12 => exact congrArg (fun x => x ++ []) (pack12_truncElem a c)
  | w16 => rw [truncElem_w16, truncElem_w16]

/-- The packers truncate, so truncating the source first changes nothing. -/
theorem image_map_truncElem (v : List Elem) (w : Width) : image (v.map (truncElem w)) w = image v w := by
  match v with
  | [] => rfl
  | [a] => exact image_singleton_truncElem a w
  | a :: c :: rest =>
    rw [List.map_cons, List.map_cons, image_cons_cons, image_pair_truncElem, image_map_truncElem rest w,
      ← image_cons_cons]

/-- Settles O20: an image is the image of the truncated source, and the premise says that the truncated sources are equal. -/
theorem truncationOnly : Obligations.TruncationOnly := by
  intro v v' w h
  have htrunc : v.map (truncElem w) = v'.map (truncElem w) := by
    refine List.map_injective_iff.2 (fun x y => BitVec.eq_of_toNat_eq) ?_
    simpa [Function.comp_def, truncElem_toNat] using h
  rw [← image_map_truncElem v, htrunc, image_map_truncElem]

/-- Settles O21: the table is the definition, and the extent is monotone, so it takes a maximum to the maximum. -/
theorem locatorTable : Obligations.LocatorTable := by
  refine ⟨fun i => ⟨⟨rfl, rfl⟩, ⟨rfl, rfl⟩, ⟨rfl, rfl⟩, rfl, rfl⟩, fun i j w h => extent_mono h w, fun i j k w => ?_,
    by decide⟩
  have hmono : Monotone (extent · w) := fun _ _ h => extent_mono h w
  rw [hmono.map_max, hmono.map_max]

end Sys2Proof.Machine
end

section
/-! SUPPORT. A CMD write between commands, the idle unit and the register window (10_state.md R17, R23, 30_encoding.md R57,
60_exceptions.md R106). -/

namespace Sys2Proof.Machine

/-- A whole CMD write runs `execute` in one step (70_reset_and_hazards.md R116). -/
theorem step_cmdWrite {h : Nat} {w : Word} {s : State} {rest : List HostEvent} (hf : s.inflight = none)
    (hp : s.pending = cmdWrite h w :: rest) : step s = execute h w (s.withPending rest) :=
  step_regWrite hf hp rfl

/-- Settles O7: a CMD write is `execute`, and `execute` runs the decoded command on the started state. -/
theorem stepRunsTheDecodedCommand : Obligations.StepRunsTheDecodedCommand := by
  intro h s w i rest hf hp hd
  rw [step_cmdWrite hf hp, execute_of_decode_ok hd]
  rfl

theorem decode_of_decodeTableWord {nbits w : Nat} {i : Instr} (h : decodeTableWord nbits w = some i) :
    decode (tableWord nbits w) = .ok i := by
  unfold decodeTableWord at h
  cases hd : decode (tableWord nbits w) with
  | error e => simp [hd] at h
  | ok j => simpa [hd] using h

/-- Settles O8: `withFetchWord` puts host 0's CMD write of the word at the head of the list. -/
theorem fetchedWordIsRun : Obligations.FetchedWordIsRun := by
  intro s nbits w i h
  exact stepRunsTheDecodedCommand 0 (s.withFetchWord nbits w) (tableWord nbits w) i s.pending rfl rfl
    (decode_of_decodeTableWord h)

/-- Settles O13: the step of an idle unit takes no event. -/
theorem idleUnitHoldsEverything : Obligations.IdleUnitHoldsEverything := by
  intro s hp hf
  simp only [step, hf, serveNext, hp]

/-- Settles O44: the map looks each offset up, and reads the register found there. -/
theorem registerMap : Obligations.RegisterMap := by
  intro s
  have hread (r : RegName) : windowRead (offsetOf r) s = readReg r s := by
    refine windowRead_of_regAt ?_ s
    cases r <;> decide
  exact ⟨hread .cmd, hread .status, hread .n, hread .src, hread .buf, hread .buflen, hread .idx0, hread .idx1, hread .idx2,
    hread .res0, hread .res1, hread .res2⟩

theorem windowOffset_eq_some (a : Nat) (o : Fin 64) : windowOffset a = some o ↔ a = Config.regBase + o.val := by
  unfold windowOffset
  split_ifs with h
  · simp only [Option.some.injEq, Fin.ext_iff]
    omega
  · have ho := o.isLt
    simp only [false_iff]
    omega

/-- Settles O45: an address has an offset exactly when it is the base and that offset. -/
theorem windowIsSixtyFourAddresses : Obligations.WindowIsSixtyFourAddresses := by
  refine ⟨Nat.mul_mod_right 64 _, fun o => (windowOffset_eq_some _ o).2 rfl, fun a ha => ?_⟩
  refine Option.eq_none_iff_forall_ne_some.2 fun o ho => ?_
  have haddr := (windowOffset_eq_some a o).1 ho
  omega

end Sys2Proof.Machine
end

section
/-! SUPPORT. Every command in its three stages (30_encoding.md R57): the width check, the operation's checks on its operands,
and what the operation then changes. A fact about all five commands is a fact about the stages. -/

namespace Sys2Proof.Machine

/-- What a command that passes its checks changes before its completion. -/
inductive Change where
  | res0 (v : Word)
  | res (a b c : Word)
  | mem (cells : List Host.Cell)

def Change.apply : Change → State → State
  | .res0 v, s => s.withRes0 v
  | .res a b c, s => s.withRes a b c
  | .mem cells, s => s.withMem (s.mem.writeCells cells)

/-- The cells of data memory that a change writes. -/
def Change.cells : Change → List Host.Cell
  | .res0 _ => []
  | .res _ _ _ => []
  | .mem cells => cells

@[simp] theorem Change.apply_mem (c : Change) (s : State) : (c.apply s).mem = s.mem.writeCells c.cells := by
  cases c <;> rfl

/-- An operation's checks on its operand registers at a width it takes (41_size.md R79, 42_encoder.md R80,
43_scalar_decoder.md R84, 44_batch_decoder.md R86). -/
def operandCheck (w : Width) (s : State) : Opcode → Option ErrorCode
  | .size => if 2 ^ 32 ≤ size s.n.toNat w then some .sizeOverflow else none
  | .enc8 => encCheck w s.n.toNat s
  | .enc16 => encCheck w (2 * s.n.toNat) s
  | .dec => decCheck (extent s.idx0.toNat w) s
  | .dec3 => decCheck (extent (maxIndex s) w) s

/-- What an operation changes once its checks have passed. -/
def operandChange (w : Width) (s : State) : Opcode → Change
  | .size => .res0 (BitVec.ofNat 32 (size s.n.toNat w))
  | .enc8 => .mem (destCells s (image (sourceOf8 s) w))
  | .enc16 => .mem (destCells s (image (sourceOf16 s) w))
  | .dec => .res0 (resultWord (decValue s 0 s.idx0.toNat w))
  | .dec3 => .res (resultWord (decValue s 0 s.idx0.toNat w)) (resultWord (decValue s 1 s.idx1.toNat w))
      (resultWord (decValue s 2 s.idx2.toNat w))

/-- A command's checks: the width, then the operation's own. -/
def instrCheck (i : Instr) (s : State) : Option ErrorCode :=
  match legalWidth i.opcode i.bpk with
  | none => some .invalidWidth
  | some w => operandCheck w s i.opcode

theorem instrCheck_of_legalWidth_none {i : Instr} (hl : legalWidth i.opcode i.bpk = none) (s : State) :
    instrCheck i s = some .invalidWidth := by
  simp only [instrCheck, hl]

theorem instrCheck_of_legalWidth_some {i : Instr} {w : Width} (hl : legalWidth i.opcode i.bpk = some w) (s : State) :
    instrCheck i s = operandCheck w s i.opcode := by
  simp only [instrCheck, hl]

section stages
variable {i : Instr} {w : Width} {s : State} {e : ErrorCode}

theorem exec_of_operandCheck_some (hl : legalWidth i.opcode i.bpk = some w) (hc : operandCheck w s i.opcode = some e) :
    exec i s = .next (failedState (errorCodeBits e) s) := by
  obtain ⟨hb, -⟩ := (legalWidth_eq_some _ _ w).1 hl
  cases i with
  | size b =>
    by_cases hz : 2 ^ 32 ≤ size s.n.toNat w
    · obtain rfl : ErrorCode.sizeOverflow = e := Option.some.inj ((if_pos hz).symm.trans hc)
      exact exec_size_of_overflows hb hz
    · exact absurd ((if_neg hz).symm.trans hc) (by simp)
  | enc8 b => exact exec_of_encCheck_some (instrBody_enc8 hl s) hc
  | enc16 b => exact exec_of_encCheck_some (instrBody_enc16 hl s) hc
  | dec b => exact exec_dec_of_decCheck_some hb hc
  | dec3 b => exact exec_dec3_of_decCheck_some hb hc

/-- A command that a check fails ends with that error and no other effect (60_exceptions.md R88). -/
theorem exec_of_instrCheck_some (hc : instrCheck i s = some e) : exec i s = .next (failedState (errorCodeBits e) s) := by
  cases hl : legalWidth i.opcode i.bpk with
  | none =>
    obtain rfl : ErrorCode.invalidWidth = e := Option.some.inj ((instrCheck_of_legalWidth_none hl s).symm.trans hc)
    exact exec_of_illegalBpk ((wellFormed_eq_false i).1 ((legalWidth_eq_none i).1 hl)) s
  | some w => exact exec_of_operandCheck_some hl ((instrCheck_of_legalWidth_some hl s).symm.trans hc)

/-- A command that passes its checks makes its operation's change and completes. -/
theorem exec_of_operandCheck_none (hl : legalWidth i.opcode i.bpk = some w) (hc : operandCheck w s i.opcode = none) :
    exec i s = .next (doneState ((operandChange w s i.opcode).apply s)) := by
  obtain ⟨hb, -⟩ := (legalWidth_eq_some _ _ w).1 hl
  cases i with
  | size b =>
    by_cases hz : 2 ^ 32 ≤ size s.n.toNat w
    · exact absurd ((if_pos hz).symm.trans hc) (by simp)
    · exact exec_size_of_fits hb (Nat.not_le.1 hz)
  | enc8 b => exact exec_of_encCheck_none (instrBody_enc8 hl s) hc
  | enc16 b => exact exec_of_encCheck_none (instrBody_enc16 hl s) hc
  | dec b => exact exec_dec_of_decCheck_none hb hc
  | dec3 b => exact exec_dec3_of_decCheck_none hb hc

theorem instrCheck_ne_some_none (i : Instr) (s : State) : instrCheck i s ≠ some .none := by
  cases hl : legalWidth i.opcode i.bpk with
  | none => simp [instrCheck_of_legalWidth_none hl]
  | some w =>
    rw [instrCheck_of_legalWidth_some hl]
    cases i.opcode with
    | size =>
      simp only [operandCheck]
      split_ifs <;> simp
    | enc8 | enc16 => exact encCheck_ne_some_none w _ s
    | dec | dec3 => exact decCheck_ne_some_none _ s

/-- A failing command writes no cell (60_exceptions.md R88). -/
theorem commandCells_of_instrCheck_some (hc : instrCheck i s = some e) : commandCells i s = [] := by
  cases i with
  | size b | dec b | dec3 b => rfl
  | enc8 b =>
    rcases enc8Cells_cases b s with ⟨d, -, hd⟩ | ⟨w, hl, hn, -⟩
    · simp [commandCells, hd, Except.toOption]
    · have hpass : instrCheck (.enc8 b) s = none := (instrCheck_of_legalWidth_some (i := .enc8 b) hl s).trans hn
      simp [hpass] at hc
  | enc16 b =>
    rcases enc16Cells_cases b s with ⟨d, -, hd⟩ | ⟨w, hl, hn, -⟩
    · simp [commandCells, hd, Except.toOption]
    · have hpass : instrCheck (.enc16 b) s = none := (instrCheck_of_legalWidth_some (i := .enc16 b) hl s).trans hn
      simp [hpass] at hc

/-- The cells a successful command writes are those of its change. -/
theorem commandCells_of_operandCheck_none (hl : legalWidth i.opcode i.bpk = some w)
    (hc : operandCheck w s i.opcode = none) : commandCells i s = (operandChange w s i.opcode).cells := by
  cases i with
  | size b | dec b | dec3 b => rfl
  | enc8 b =>
    rw [commandCells, enc8Cells_ok (b := b) hl hc]
    rfl
  | enc16 b =>
    rw [commandCells, enc16Cells_ok (b := b) hl hc]
    rfl

end stages

/-- The two ways a command ends, with the stage that decides. -/
inductive CommandEnds (i : Instr) (s : State) : State → Prop where
  | failed (e : ErrorCode) (hc : instrCheck i s = some e) : CommandEnds i s (failedState (errorCodeBits e) s)
  | done (w : Width) (hl : legalWidth i.opcode i.bpk = some w) (hc : operandCheck w s i.opcode = none) :
      CommandEnds i s (doneState ((operandChange w s i.opcode).apply s))

theorem commandEnds_of_exec {i : Instr} {s t : State} (h : exec i s = .next t) : CommandEnds i s t := by
  cases hc : instrCheck i s with
  | some e =>
    obtain rfl := Host.Outcome.next.inj ((exec_of_instrCheck_some hc).symm.trans h)
    exact .failed e hc
  | none =>
    cases hl : legalWidth i.opcode i.bpk with
    | none => exact absurd ((instrCheck_of_legalWidth_none hl s).symm.trans hc) (by simp)
    | some w =>
      have hpass := (instrCheck_of_legalWidth_some hl s).symm.trans hc
      obtain rfl := Host.Outcome.next.inj ((exec_of_operandCheck_none hl hpass).symm.trans h)
      exact .done w hl hpass

/-- A command that ends with ERRCODE 0 has passed its checks (60_exceptions.md R89). -/
theorem done_of_errCode_zero {i : Instr} {s t : State} (h : exec i s = .next t) (hcode : t.status.errCode = 0) :
    ∃ w, legalWidth i.opcode i.bpk = some w ∧ operandCheck w s i.opcode = none ∧
      t = doneState ((operandChange w s i.opcode).apply s) := by
  cases commandEnds_of_exec h with
  | failed e hc => exact absurd ((errorCodeBits_eq_zero e).1 hcode ▸ hc) (instrCheck_ne_some_none i s)
  | done w hl hc => exact ⟨w, hl, hc, rfl⟩

/-- The width that a legal BPK names is the only one of its bits. -/
theorem width_eq_of_legalWidth {o : Opcode} {b : BitVec 8} {v w : Width} (hl : legalWidth o b = some v)
    (hb : b.toNat = w.bits) : v = w := by
  obtain ⟨hv, -⟩ := (legalWidth_eq_some o b v).1 hl
  exact Width.bits_injective (hv.symm.trans hb)

/-- Two states on which a command's checks and its change agree end alike: with the same error, or with the same change. -/
theorem exec_congr {i : Instr} {s s' : State}
    (hcheck : ∀ w, operandCheck w s' i.opcode = operandCheck w s i.opcode)
    (hchange : ∀ w, legalWidth i.opcode i.bpk = some w → operandCheck w s i.opcode = none →
      operandChange w s' i.opcode = operandChange w s i.opcode) :
    (∃ code, exec i s = .next (failedState code s) ∧ exec i s' = .next (failedState code s') ∧ commandCells i s = []) ∨
      ∃ c : Change, exec i s = .next (doneState (c.apply s)) ∧ exec i s' = .next (doneState (c.apply s')) ∧
        commandCells i s = c.cells := by
  have hcheck' : instrCheck i s' = instrCheck i s := by simp only [instrCheck, hcheck]
  obtain ⟨t, ht⟩ : ∃ t, exec i s = .next t := by rcases exec_cases i s with ⟨_, -, h⟩ | ⟨_, -, h⟩ <;> exact ⟨_, h⟩
  cases commandEnds_of_exec ht with
  | failed e hc =>
    exact .inl ⟨_, ht, exec_of_instrCheck_some (hcheck'.trans hc), commandCells_of_instrCheck_some hc⟩
  | done w hl hc =>
    refine .inr ⟨_, ht, ?_, commandCells_of_operandCheck_none hl hc⟩
    rw [exec_of_operandCheck_none hl ((hcheck w).trans hc), hchange w hl hc]

/-- Settles O10: a command completes in either of its two ways of ending. -/
theorem everyCommandAnswersNext : Obligations.EveryCommandAnswersNext := by
  intro i s
  rcases exec_cases i s with ⟨e, -, h⟩ | ⟨u, -, h⟩
  · exact ⟨_, h, rfl, rfl, errorCodeBits_lt e⟩
  · exact ⟨_, h, rfl, rfl, errorCodeBits_lt .none⟩

/-! ## Registers that a command does not read -/

/-- Settles O39: STATUS takes no part in a check or a change. -/
theorem noCommandReadsStatus : Obligations.NoCommandReadsStatus := by
  intro i s t st h
  have hcheck (w : Width) : operandCheck w (s.withStatus st) i.opcode = operandCheck w s i.opcode := by
    cases i <;> rfl
  have hchange (w : Width) : operandChange w (s.withStatus st) i.opcode = operandChange w s i.opcode := by
    cases i <;> rfl
  rcases exec_congr hcheck fun w _ _ => hchange w with ⟨code, hs, hs', -⟩ | ⟨c, hs, hs', -⟩
  · obtain rfl := Host.Outcome.next.inj (hs.symm.trans h)
    exact ⟨_, hs', rfl, rfl, rfl⟩
  · obtain rfl := Host.Outcome.next.inj (hs.symm.trans h)
    exact ⟨_, hs', by cases c <;> rfl, rfl, rfl⟩

/-- A command's next state follows a change `g` of the state that neither its checks nor its change see, and that commutes
with every end of a command. -/
theorem exec_of_unread (g : State → State) {i : Instr} {s t : State}
    (hcheck : ∀ w, operandCheck w (g s) i.opcode = operandCheck w s i.opcode)
    (hchange : ∀ w, operandChange w (g s) i.opcode = operandChange w s i.opcode)
    (hfailed : ∀ code, failedState code (g s) = g (failedState code s))
    (hdone : ∀ c : Change, doneState (c.apply (g s)) = g (doneState (c.apply s))) (h : exec i s = .next t) :
    exec i (g s) = .next (g t) := by
  rcases exec_congr hcheck fun w _ _ => hchange w with ⟨code, hs, hs', -⟩ | ⟨c, hs, hs', -⟩
  · obtain rfl := Host.Outcome.next.inj (hs.symm.trans h)
    rw [hs', hfailed]
  · obtain rfl := Host.Outcome.next.inj (hs.symm.trans h)
    rw [hs', hdone]

/-- Settles O40: the checks and the change of an operation do not see the registers outside its column of operands. -/
theorem unreadRegistersDoNotMatter : Obligations.UnreadRegistersDoNotMatter := by
  refine ⟨fun b s t x1 x2 x3 x4 x5 x6 h => ?_, fun i s t x1 x2 x3 hi h => ?_, fun b s t x1 x2 x3 x4 h => ?_,
    fun b s t x1 x2 h => ?_⟩
  · exact exec_of_unread
      (fun s => { s with src := x1, buf := x2, buflen := x3, idx0 := x4, idx1 := x5, idx2 := x6 })
      (fun _ => rfl) (fun _ => rfl) (fun _ => rfl) (fun c => by cases c <;> rfl) h
  · refine exec_of_unread (fun s => { s with idx0 := x1, idx1 := x2, idx2 := x3 }) (fun w => ?_) (fun w => ?_)
      (fun _ => rfl) (fun c => by cases c <;> rfl) h
    · rcases hi with hi | hi <;> rw [hi] <;> rfl
    · rcases hi with hi | hi <;> rw [hi] <;> rfl
  · exact exec_of_unread (fun s => { s with n := x1, src := x2, idx1 := x3, idx2 := x4 })
      (fun _ => rfl) (fun _ => rfl) (fun _ => rfl) (fun c => by cases c <;> rfl) h
  · exact exec_of_unread (fun s => { s with n := x1, src := x2 })
      (fun _ => rfl) (fun _ => rfl) (fun _ => rfl) (fun c => by cases c <;> rfl) h

/-! ## What a command changes -/

/-- An encoder's change is the image of an array of n elements, at BUF (42_encoder.md R83). -/
theorem operandChange_of_encoder {o : Opcode} (ho : o = .enc8 ∨ o = .enc16) (w : Width) (s : State) :
    ∃ v : List Elem, v.length = s.n.toNat ∧ operandChange w s o = .mem (destCells s (image v w)) := by
  rcases ho with rfl | rfl
  · exact ⟨sourceOf8 s, length_sourceOf8 s, rfl⟩
  · exact ⟨sourceOf16 s, length_sourceOf16 s, rfl⟩

/-- Settles O27: a failing encode changes STATUS only, and a successful one writes the cells of `[BUF, BUF + size)`. -/
theorem encoderFrame : Obligations.EncoderFrame := by
  intro i s t hi h
  cases commandEnds_of_exec h with
  | failed e hc => exact ⟨rfl, fun _ => rfl, fun _ _ _ _ => rfl⟩
  | done v hl hc =>
    obtain ⟨source, hlen, hchange⟩ := operandChange_of_encoder hi v s
    rw [hchange]
    refine ⟨rfl, fun hcode => absurd rfl hcode, fun w a hb ha => ?_⟩
    obtain rfl := width_eq_of_legalWidth hl hb
    refine read_writeCells_other _ _ _ fun c hcell => ?_
    have hrange := mem_destCells hcell
    rw [length_image, hlen] at hrange
    omega

/-- Settles O34: a failing command changes STATUS only, and a successful one the RES registers of its operation. -/
theorem resultCommandsFrame : Obligations.ResultCommandsFrame := by
  intro i s t hi h
  cases commandEnds_of_exec h with
  | failed e hc => exact ⟨rfl, fun _ => ⟨rfl, rfl⟩, fun _ => ⟨rfl, rfl, rfl⟩⟩
  | done w hl hc =>
    rcases hi with hi | hi | hi
    · rw [hi]
      exact ⟨rfl, fun _ => ⟨rfl, rfl⟩, fun hcode => absurd rfl hcode⟩
    · rw [hi]
      exact ⟨rfl, fun _ => ⟨rfl, rfl⟩, fun hcode => absurd rfl hcode⟩
    · rw [hi]
      exact ⟨rfl, fun hne => absurd rfl hne, fun hcode => absurd rfl hcode⟩

/-- A raced value is cut to the width, and an unraced one is a field of that width (20_memory.md R49). -/
theorem resultWord_decValue_lt (s : State) (slot i : Nat) (w : Width) :
    (resultWord (decValue s slot i w)).toNat < 2 ^ w.bits := by
  rw [resultWord, BitVec.toNat_setWidth_of_le (by decide), decValue]
  split_ifs
  · rw [truncElem_toNat]
    exact Nat.mod_lt _ (Nat.two_pow_pos _)
  · exact (decodeAt_toNat s.mem _ _ w).trans_lt (arithmeticValue_lt s.mem _ _ w)

/-- Settles O35: a success leaves decoded values, and these fit their width in either case of a race. -/
theorem decodedValuesFitTheirWidth : Obligations.DecodedValuesFitTheirWidth := by
  intro b w s t hb
  refine ⟨fun h hcode => ?_, fun h hcode => ?_⟩
  · obtain ⟨v, hl, -, rfl⟩ := done_of_errCode_zero h hcode
    obtain rfl := width_eq_of_legalWidth hl hb
    exact resultWord_decValue_lt s 0 _ v
  · obtain ⟨v, hl, -, rfl⟩ := done_of_errCode_zero h hcode
    obtain rfl := width_eq_of_legalWidth hl hb
    exact ⟨resultWord_decValue_lt s 0 _ v, resultWord_decValue_lt s 1 _ v, resultWord_decValue_lt s 2 _ v⟩

/-! ## The number of bytes a command names -/

@[simp] theorem length_addressesFrom (a len : Nat) : (addressesFrom a len).length = len := by simp [addressesFrom]

theorem length_decodeFootprint {b : BitVec 8} {w : Width} (hb : b.toNat = w.bits) (s : State) (i : Nat) :
    (decodeFootprint b s i).length = bytesRead w := by
  simp only [decodeFootprint, (widthOf_eq_some b w).2 hb, length_addressesFrom]

@[simp] theorem length_destCells (s : State) (bs : List Byte) : (destCells s bs).length = bs.length := by
  simp [destCells]

/-- Settles O29: a success's footprints are the lists of its operation, with the lengths of the source, of one index's bytes,
and of the image. -/
theorem accessCounts : Obligations.AccessCounts := by
  intro i w s t hb h hcode
  obtain ⟨v, hl, hc, -⟩ := done_of_errCode_zero h hcode
  obtain rfl := width_eq_of_legalWidth hl hb
  rw [writeFootprint, commandCells_of_operandCheck_none hl hc, List.length_map]
  cases i with
  | size b => exact ⟨rfl, rfl⟩
  | enc8 b =>
    refine ⟨?_, by simp [Instr.opcode, operandChange, Change.cells, length_image]⟩
    rw [readFootprint, enc8Cells_ok (b := b) hl hc]
    exact length_addressesFrom _ _
  | enc16 b =>
    refine ⟨?_, by simp [Instr.opcode, operandChange, Change.cells, length_image]⟩
    rw [readFootprint, enc16Cells_ok (b := b) hl hc]
    exact length_addressesFrom _ _
  | dec b =>
    refine ⟨?_, rfl⟩
    rw [readFootprint_dec (b := b) hl hc, length_decodeFootprint (b := b) hb]
    rfl
  | dec3 b =>
    refine ⟨?_, rfl⟩
    rw [readFootprint_dec3 (b := b) hl hc]
    simp only [List.length_append, length_decodeFootprint (b := b) hb]
    cases v <;> rfl

end Sys2Proof.Machine
end

section
/-! SUPPORT. Data memory by what it reads as (20_memory.md R36): canonical memories are their reads, and the reads after a
list of cells at different addresses are those cells. -/

namespace Sys2Proof.Machine

/-- The rest of a canonical memory is what it reads as above the first address. -/
theorem read_rest_eq {k : Nat} {b : Byte} {rest rest' : Memory} (hrest : rest.wfAbove k = true)
    (hrest' : rest'.wfAbove k = true) (h : ∀ a, Memory.read ((k, b) :: rest) a = Memory.read ((k, b) :: rest') a)
    (a : Nat) : rest.read a = rest'.read a := by
  by_cases ha : a ≤ k
  · rw [read_of_wfAbove rest k a hrest ha, read_of_wfAbove rest' k a hrest' ha]
  · have hne : k ≠ a := by omega
    simpa [Memory.read, hne] using h a

/-- Two canonical memories that read alike have no first address below the other's: it would read as something else than
an unlisted address. -/
theorem first_le_of_read_eq {k k' : Nat} {b b' : Byte} {rest rest' : Memory} (hwf : Memory.wf ((k, b) :: rest) = true)
    (hwf' : Memory.wf ((k', b') :: rest') = true)
    (h : ∀ a, Memory.read ((k, b) :: rest) a = Memory.read ((k', b') :: rest') a) : k' ≤ k := by
  by_contra hlt
  simp only [Memory.wf, Bool.and_eq_true, decide_eq_true_eq] at hwf hwf'
  have habove : Memory.wfAbove k ((k', b') :: rest') = true := by
    simp [Memory.wfAbove, hwf', Nat.lt_of_not_le hlt]
  have hread := h k
  rw [read_of_wfAbove _ k k habove le_rfl, Memory.read, if_pos rfl] at hread
  exact hwf.1 hread

/-- A canonical memory that lists an address does not read like the empty one. -/
theorem read_first_ne_read_nil {k : Nat} {b : Byte} {rest : Memory} (hwf : Memory.wf ((k, b) :: rest) = true) :
    Memory.read ((k, b) :: rest) k ≠ Memory.read [] k := by
  simp only [Memory.wf, Bool.and_eq_true, decide_eq_true_eq] at hwf
  simpa [Memory.read] using hwf.1

/-- Settles O60: canonical memories that read alike have the same first address and the same byte there, and their rests read
alike. -/
theorem canonicalMemoriesThatReadAlikeAreEqual : Obligations.CanonicalMemoriesThatReadAlikeAreEqual := by
  intro m
  induction m with
  | nil =>
    intro m' _ hwf' h
    cases m' with
    | nil => rfl
    | cons c' rest' => exact absurd (h c'.1).symm (read_first_ne_read_nil hwf')
  | cons c rest ih =>
    intro m' hwf hwf' h
    obtain ⟨k, b⟩ := c
    cases m' with
    | nil => exact absurd (h k) (read_first_ne_read_nil hwf)
    | cons c' rest' =>
      obtain ⟨k', b'⟩ := c'
      obtain rfl : k = k' :=
        Nat.le_antisymm (first_le_of_read_eq hwf' hwf fun a => (h a).symm) (first_le_of_read_eq hwf hwf' h)
      obtain rfl : b = b' := by simpa [Memory.read] using h k
      simp only [Memory.wf, Bool.and_eq_true] at hwf hwf'
      rw [ih rest' (wf_of_wfAbove rest k hwf.2) (wf_of_wfAbove rest' k hwf'.2) (read_rest_eq hwf.2 hwf'.2 h)]

/-! ## A list of cells -/

theorem cellAt_eq_none {cs : List Host.Cell} {a : Nat} : cellAt cs a = none ↔ a ∉ cs.map Prod.fst := by
  induction cs with
  | nil => simp [cellAt]
  | cons c rest ih =>
    by_cases hc : c.1 = a
    · simp [cellAt, hc]
    · simp [cellAt, hc, ih, Ne.symm hc]

/-- A list of cells at different addresses leaves each cell's byte at its address, and every other address alone. -/
theorem read_writeCells {cs : List Host.Cell} (hcs : (cs.map Prod.fst).Nodup) {m : Memory} (hm : m.wf = true) (a : Nat) :
    (m.writeCells cs).read a = (cellAt cs a).getD (m.read a) := by
  induction cs generalizing m with
  | nil => rfl
  | cons c rest ih =>
    obtain ⟨k, v⟩ := c
    obtain ⟨hk, hrest⟩ := List.nodup_cons.1 hcs
    rw [Memory.writeCells, ih hrest (write_wf m k v hm)]
    by_cases hka : k = a
    · subst hka
      rw [cellAt_eq_none.2 hk, cellAt, if_pos rfl]
      exact read_write_same m k v hm
    · rw [cellAt, if_neg hka, read_write_other m k a v (Ne.symm hka)]

/-- Keeping the cells of some addresses keeps the bytes there, and gives none elsewhere. -/
theorem cellAt_filter (p : Nat → Bool) (cs : List Host.Cell) (a : Nat) :
    cellAt (cs.filter fun c => p c.1) a = if p a = true then cellAt cs a else none := by
  induction cs with
  | nil => simp [cellAt]
  | cons c rest ih =>
    obtain ⟨k, v⟩ := c
    by_cases hka : k = a
    · subst hka
      by_cases hp : p k = true <;> simp [cellAt, hp, ih]
    · by_cases hp : p k = true <;> simp [cellAt, hp, hka, ih]

theorem map_fst_cellsFrom (a : Nat) (bs : List Byte) : (cellsFrom a bs).map Prod.fst = List.range' a bs.length := by
  induction bs generalizing a with
  | nil => rfl
  | cons b rest ih => simp [cellsFrom, ih, List.range'_succ]

/-- An encode writes each byte of its destination once (42_encoder.md R83). -/
theorem nodup_destCells (s : State) (bs : List Byte) : ((destCells s bs).map Prod.fst).Nodup := by
  rw [map_fst_destCells, map_fst_cellsFrom]
  exact List.nodup_range'

theorem nodup_change_cells (w : Width) (s : State) (o : Opcode) : ((operandChange w s o).cells.map Prod.fst).Nodup := by
  cases o with
  | size | dec | dec3 => exact List.nodup_nil
  | enc8 | enc16 => exact nodup_destCells s _

/-- A command writes each address at most once. -/
theorem nodup_commandCells (i : Instr) (s : State) : ((commandCells i s).map Prod.fst).Nodup := by
  cases hc : instrCheck i s with
  | some e => simp [commandCells_of_instrCheck_some hc]
  | none =>
    cases hl : legalWidth i.opcode i.bpk with
    | none => simp [instrCheck_of_legalWidth_none hl] at hc
    | some w =>
      rw [commandCells_of_operandCheck_none hl ((instrCheck_of_legalWidth_some hl s).symm.trans hc)]
      exact nodup_change_cells w s i.opcode

/-- A destination byte that nobody else has written meanwhile is the image's. -/
theorem cellAt_destCells {s : State} {a : Nat} (h : s.raced a = false) (bs : List Byte) :
    cellAt (destCells s bs) a = cellAt (cellsFrom s.buf.toNat bs) a := by
  unfold destCells
  induction cellsFrom s.buf.toNat bs with
  | nil => rfl
  | cons c rest ih =>
    obtain ⟨k, v⟩ := c
    by_cases hka : k = a
    · subst hka
      simp [destCell, cellAt, h]
    · simp [cellAt, destCell_fst, hka, ih]

end Sys2Proof.Machine
end

section
/-! SUPPORT. What an encode leaves in memory (42_encoder.md R81 to R83), the decode of it (40_bitfield_units.md R76), the
results and elements of a race that nobody disturbed (20_memory.md R49), and the bytes a command depends on. -/

namespace Sys2Proof.Machine

/-! ## A command's dependence on memory -/

theorem decodeAt_congr {read read' : Nat → Byte} {base i : Nat} {w : Width}
    (h : ∀ a, base + off i w ≤ a → a < base + extent i w → read a = read' a) :
    decodeAt read base i w = decodeAt read' base i w := by
  have hbyte (j : Nat) (hj : j < bytesRead w) : read (base + off i w + j) = read' (base + off i w + j) :=
    h _ (by omega) (by unfold extent; omega)
  cases w with
  | w4 => exact congrArg (unpack4 · i) (hbyte 0 (by decide))
  | w8 => exact congrArg unpack8 (hbyte 0 (by decide))
  | w12 =>
    have hfirst : read (base + off i .w12) = read' (base + off i .w12) := hbyte 0 (by decide)
    simp only [decodeAt, hfirst, hbyte 1 (by decide), hbyte 2 (by decide)]
  | w16 => exact congrArg₂ unpack16 (hbyte 0 (by decide)) (hbyte 1 (by decide))

section withMem
variable {s : State} {m : Memory}

theorem sourceOf8_withMem (h : ∀ a, s.src.toNat ≤ a ∧ a < s.src.toNat + s.n.toNat → m.read a = s.mem.read a) :
    sourceOf8 (s.withMem m) = sourceOf8 s := by
  refine List.map_congr_left fun k hk => ?_
  have hk' : k < s.n.toNat := List.mem_range.1 hk
  have hread := h (s.src.toNat + k) (by omega)
  simp only [srcElem8, State.byteAt, withMem_src, withMem_mem, hread]
  rfl

theorem sourceOf16_withMem (h : ∀ a, s.src.toNat ≤ a ∧ a < s.src.toNat + 2 * s.n.toNat → m.read a = s.mem.read a) :
    sourceOf16 (s.withMem m) = sourceOf16 s := by
  refine List.map_congr_left fun k hk => ?_
  have hk' : k < s.n.toNat := List.mem_range.1 hk
  have hlow := h (s.src.toNat + 2 * k) (by omega)
  have hhigh := h (s.src.toNat + 2 * k + 1) (by omega)
  simp only [srcElem16, State.byteAt, withMem_src, withMem_mem, hlow, hhigh]
  rfl

theorem decValue_withMem {b : BitVec 8} {w : Width} {i : Nat} (hb : b.toNat = w.bits)
    (h : ∀ a ∈ decodeFootprint b s i, m.read a = s.mem.read a) (slot : Nat) :
    decValue (s.withMem m) slot i w = decValue s slot i w := by
  have hvalue : decodeAt m.read s.buf.toNat i w = decodeAt s.mem.read s.buf.toNat i w :=
    decodeAt_congr fun a hlo hhi => h a ((mem_decodeFootprint hb s i a).2 ⟨hlo, hhi⟩)
  exact congrArg (fun v => if decodeRaced s i w then truncElem w (Config.freeElement s.tag slot) else v) hvalue

/-- A successful command's change depends only on the bytes of its read footprint. -/
theorem operandChange_withMem {i : Instr} {w : Width} (h : ∀ a ∈ readFootprint i s, m.read a = s.mem.read a)
    (hl : legalWidth i.opcode i.bpk = some w) (hc : operandCheck w s i.opcode = none) :
    operandChange w (s.withMem m) i.opcode = operandChange w s i.opcode := by
  obtain ⟨hb, -⟩ := (legalWidth_eq_some _ _ w).1 hl
  cases i with
  | size b => rfl
  | enc8 b =>
    have hsource := sourceOf8_withMem fun a ha => h a ((mem_readFootprint_enc8 hl hc a).2 ha)
    exact congrArg (fun v => Change.mem (destCells s (image v w))) hsource
  | enc16 b =>
    have hsource := sourceOf16_withMem fun a ha => h a ((mem_readFootprint_enc16 hl hc a).2 ha)
    exact congrArg (fun v => Change.mem (destCells s (image v w))) hsource
  | dec b =>
    rw [readFootprint_dec (b := b) hl hc] at h
    exact congrArg (fun v => Change.res0 (resultWord v)) (decValue_withMem hb h 0)
  | dec3 b =>
    rw [readFootprint_dec3 (b := b) hl hc] at h
    simp only [List.mem_append] at h
    simp only [Instr.opcode, operandChange, withMem_idx0, withMem_idx1, withMem_idx2]
    rw [decValue_withMem hb fun a ha => h a (.inl (.inl ha)), decValue_withMem hb fun a ha => h a (.inl (.inr ha)),
      decValue_withMem hb fun a ha => h a (.inr ha)]

end withMem

/-- Settles O28: the checks do not read memory and the change depends on the read footprint alone; both commands then write
the same cells. -/
theorem commandsDependOnlyOnTheirReadBytes : Obligations.CommandsDependOnlyOnTheirReadBytes := by
  intro i s t t' m hs hm hread h h'
  have hcheck (w : Width) : operandCheck w (s.withMem m) i.opcode = operandCheck w s i.opcode := by cases i <;> rfl
  rcases exec_congr hcheck fun w => operandChange_withMem hread with ⟨code, ht, ht', hcells⟩ | ⟨c, ht, ht', hcells⟩
  · obtain rfl := Host.Outcome.next.inj (ht.symm.trans h)
    obtain rfl := Host.Outcome.next.inj (ht'.symm.trans h')
    exact ⟨rfl, by simp [writeFootprint, hcells]⟩
  · obtain rfl := Host.Outcome.next.inj (ht.symm.trans h)
    obtain rfl := Host.Outcome.next.inj (ht'.symm.trans h')
    refine ⟨by cases c <;> rfl, fun a ha => ?_⟩
    rw [writeFootprint, hcells] at ha
    have hnodup : (c.cells.map Prod.fst).Nodup := hcells ▸ nodup_commandCells i s
    obtain ⟨v, hv⟩ := Option.ne_none_iff_exists'.1 (mt cellAt_eq_none.1 (not_not.2 ha))
    change ((c.apply (s.withMem m)).mem).read a = ((c.apply s).mem).read a
    rw [Change.apply_mem, Change.apply_mem, withMem_mem, read_writeCells hnodup hm, read_writeCells hnodup hs, hv]
    rfl

/-! ## The image at BUF -/

@[simp] theorem length_memSource8 (s : State) : (memSource8 s).length = s.n.toNat := by simp [memSource8]
@[simp] theorem length_memSource16 (s : State) : (memSource16 s).length = s.n.toNat := by simp [memSource16]

theorem le16_eq_ofNat (x y : Byte) : le16 x y = BitVec.ofNat 16 (x.toNat + 256 * y.toNat) := by
  rw [← le16_toNat, BitVec.ofNat_toNat, BitVec.setWidth_eq]

/-- The cells of an ENC8 that nobody races with are the image of what memory holds. -/
theorem Unraced.destCells_enc8 {b : BitVec 8} {w : Width} {s : State} (h : Unraced (.enc8 b) s)
    (hl : legalWidth .enc8 b = some w) (hc : encCheck w s.n.toNat s = none) :
    destCells s (image (Machine.sourceOf8 s) w) = cellsFrom s.buf.toNat (image (memSource8 s) w) := by
  have hsource : Machine.sourceOf8 s = memSource8 s := by
    simp only [h.sourceOf8 hl hc, memSource8, BitVec.ofNat_toNat]
  rw [Except.ok.inj ((enc8Cells_ok hl hc).symm.trans (h.enc8Cells hl hc)), hsource]

/-- The cells of an ENC16 that nobody races with are the image of what memory holds. -/
theorem Unraced.destCells_enc16 {b : BitVec 8} {w : Width} {s : State} (h : Unraced (.enc16 b) s)
    (hl : legalWidth .enc16 b = some w) (hc : encCheck w (2 * s.n.toNat) s = none) :
    destCells s (image (Machine.sourceOf16 s) w) = cellsFrom s.buf.toNat (image (memSource16 s) w) := by
  have hsource : Machine.sourceOf16 s = memSource16 s := by
    simp only [h.sourceOf16 hl hc, le16_eq_ofNat, memSource16]
  rw [Except.ok.inj ((enc16Cells_ok hl hc).symm.trans (h.enc16Cells hl hc)), hsource]

/-- Memory after an encode of `v` that nobody races with. -/
def encodedMem (s : State) (v : List Elem) (w : Width) : Memory := s.mem.writeCells (cellsFrom s.buf.toNat (image v w))

section encode
variable {b : BitVec 8} {w : Width} {s : State}

theorem exec_enc8_of_unraced (h : Unraced (.enc8 b) s) (hl : legalWidth .enc8 b = some w)
    (hc : encCheck w s.n.toNat s = none) :
    exec (.enc8 b) s = .next (doneState (s.withMem (encodedMem s (memSource8 s) w))) := by
  rw [encodedMem, ← h.destCells_enc8 hl hc]
  exact exec_of_operandCheck_none (i := .enc8 b) hl hc

theorem exec_enc16_of_unraced (h : Unraced (.enc16 b) s) (hl : legalWidth .enc16 b = some w)
    (hc : encCheck w (2 * s.n.toNat) s = none) :
    exec (.enc16 b) s = .next (doneState (s.withMem (encodedMem s (memSource16 s) w))) := by
  rw [encodedMem, ← h.destCells_enc16 hl hc]
  exact exec_of_operandCheck_none (i := .enc16 b) hl hc

variable {v : List Elem}

theorem holdsAt_encodedMem (hs : s.mem.wf = true) : HoldsAt (encodedMem s v w).read s.buf.toNat (image v w) :=
  fun j hj => read_writeCells_cellsFrom _ s.mem _ j hs hj

/-- The image fills `[BUF, BUF + size)`, and nothing else changes (42_encoder.md R83). -/
theorem encodedMem_image_and_frame (hs : s.mem.wf = true) (hv : v.length = s.n.toNat) :
    (∀ j, j < size s.n.toNat w → (image v w)[j]? = some ((encodedMem s v w).read (s.buf.toNat + j))) ∧
      ∀ a, a < s.buf.toNat ∨ s.buf.toNat + size s.n.toNat w ≤ a → (encodedMem s v w).read a = s.mem.read a := by
  have hlen : (image v w).length = size s.n.toNat w := by rw [length_image, hv]
  refine ⟨fun j hj => ?_, fun a ha => read_writeCells_cellsFrom_other _ _ _ _ (hlen ▸ ha)⟩
  rw [← hlen] at hj
  rw [holdsAt_encodedMem hs j hj, List.getElem?_eq_getElem hj]

end encode

/-- Settles O24: the cells of an unraced ENC8 are its source's image from BUF on. -/
theorem enc8WritesTheImage : Obligations.Enc8WritesTheImage := by
  intro b w s hs hunraced hb hw hrun
  have hc := (encCheck_eq_none_iff_encodeMayRun w _ s).2 hrun
  exact ⟨_, exec_enc8_of_unraced hunraced (legalWidth_enc8 hb hw) hc,
    encodedMem_image_and_frame hs (length_memSource8 s)⟩

/-- Settles O25: the cells of an unraced ENC16 are its source's image from BUF on. -/
theorem enc16WritesTheImage : Obligations.Enc16WritesTheImage := by
  intro b w s hs hunraced hb hw hrun
  have hc := (encCheck_eq_none_iff_encodeMayRun w _ s).2 hrun
  exact ⟨_, exec_enc16_of_unraced hunraced (legalWidth_enc16 hb hw) hc,
    encodedMem_image_and_frame hs (length_memSource16 s)⟩

/-! ## An encode and then a decode -/

/-- An index of an encode that may run passes the decoders' checks on the same buffer (40_bitfield_units.md R77). -/
theorem decodeMayRun_of_encodeMayRun {w : Width} {len k : Nat} {s : State} (hrun : EncodeMayRun w len s)
    (hk : k < s.n.toNat) : DecodeMayRun (extent k w) s := by
  obtain ⟨-, hlen, -, hmem, -⟩ := hrun
  have hle := extent_le_size hk w
  have hpos := extent_pos k w
  unfold DecodeMayRun
  omega

theorem indexUnraced_of_idle {s : State} (hf : s.inflight = none) (i : Nat) (w : Width) : IndexUnraced s i w :=
  fun a _ _ => (undisturbed_of_idle hf).raced a

/-- A DEC between commands of an element of an image at BUF gives that element, truncated. -/
theorem exec_dec_of_image {b : BitVec 8} {w : Width} {s : State} {v : List Elem} (hb : b.toNat = w.bits)
    (hf : s.inflight = none) (himg : HoldsAt s.mem.read s.buf.toNat (image v w))
    (hrun : DecodeMayRun (extent s.idx0.toNat w) s) (hk : s.idx0.toNat < v.length) :
    ∃ u, exec (.dec b) s = .next u ∧ u.status.errCode = 0 ∧ u.res0.toNat = v[s.idx0.toNat].toNat % 2 ^ w.bits := by
  refine ⟨_, exec_dec_of_decCheck_none hb (decCheck_of_decodeMayRun hrun), rfl, ?_⟩
  change (resultWord (decValue s 0 s.idx0.toNat w)).toNat = _
  rw [decValue_exact (indexUnraced_of_idle hf _ w), decodeAt_image v _ _ hk himg, resultWord,
    BitVec.toNat_setWidth_of_le (by decide), truncElem_toNat]

/-- After an unraced encode of `v`, a DEC of index `k` gives element `k`, truncated. -/
theorem exec_dec_of_encodedMem {b : BitVec 8} {w : Width} {s : State} {v : List Elem} {len k : Nat}
    (hb : b.toNat = w.bits) (hs : s.mem.wf = true) (hc : encCheck w len s = none) (hv : v.length = s.n.toNat)
    (hk : k < v.length) :
    ∃ u, exec (.dec b) { doneState (s.withMem (encodedMem s v w)) with idx0 := BitVec.ofNat 32 k } = .next u ∧
      u.status.errCode = 0 ∧ u.res0.toNat = v[k].toNat % 2 ^ w.bits := by
  have hidx : (BitVec.ofNat 32 k).toNat = k := by
    have hn := s.n.isLt
    rw [BitVec.toNat_ofNat]
    omega
  have hrun := decodeMayRun_of_encodeMayRun ((encCheck_eq_none_iff_encodeMayRun w len s).1 hc) (hv ▸ hk)
  rw [← hidx] at hrun
  have hdec := exec_dec_of_image (s := { doneState (s.withMem (encodedMem s v w)) with idx0 := BitVec.ofNat 32 k }) hb rfl
    (holdsAt_encodedMem hs) hrun (hidx.trans_lt hk)
  simpa only [hidx] using hdec

theorem memSource8_getElem_toNat {s : State} {k : Nat} (hk : k < (memSource8 s).length) :
    (memSource8 s)[k].toNat = (s.mem.read (s.src.toNat + k)).toNat := by
  have hbyte := (s.mem.read (s.src.toNat + k)).isLt
  simp only [memSource8, List.getElem_map, List.getElem_range, BitVec.toNat_ofNat]
  omega

theorem memSource16_getElem_toNat {s : State} {k : Nat} (hk : k < (memSource16 s).length) :
    (memSource16 s)[k].toNat =
      (s.mem.read (s.src.toNat + 2 * k)).toNat + 256 * (s.mem.read (s.src.toNat + 2 * k + 1)).toNat := by
  have hlow := (s.mem.read (s.src.toNat + 2 * k)).isLt
  have hhigh := (s.mem.read (s.src.toNat + 2 * k + 1)).isLt
  simp only [memSource16, List.getElem_map, List.getElem_range, BitVec.toNat_ofNat]
  omega

/-- Settles O30: the encode leaves the image of its source at BUF, the DEC's checks follow from the encode's, and decoding an
element of an image gives its value, truncated. -/
theorem encodeThenDecodeGivesTheElement : Obligations.EncodeThenDecodeGivesTheElement := by
  refine ⟨fun b w s t k hs hunraced hb h hcode hk => ?_, fun b w s t k hs hunraced hb h hcode hk => ?_⟩
  · obtain ⟨v, hl, hc, -⟩ := done_of_errCode_zero h hcode
    obtain rfl := width_eq_of_legalWidth hl hb
    obtain rfl := Host.Outcome.next.inj ((exec_enc8_of_unraced hunraced hl hc).symm.trans h)
    rw [← length_memSource8] at hk
    rw [← memSource8_getElem_toNat hk]
    exact exec_dec_of_encodedMem hb hs hc (length_memSource8 s) hk
  · obtain ⟨v, hl, hc, -⟩ := done_of_errCode_zero h hcode
    obtain rfl := width_eq_of_legalWidth hl hb
    obtain rfl := Host.Outcome.next.inj ((exec_enc16_of_unraced hunraced hl hc).symm.trans h)
    rw [← length_memSource16] at hk
    rw [← memSource16_getElem_toNat hk]
    exact exec_dec_of_encodedMem hb hs hc (length_memSource16 s) hk

/-! ## What a race leaves exact -/

/-- Settles O53: each result is decoded from its own bytes, and is their value when none of them is raced. -/
theorem unracedResultsOfDec3AreExact : Obligations.UnracedResultsOfDec3AreExact := by
  intro b w s hb hrun
  rw [← maxIndex_eq] at hrun
  exact ⟨_, exec_dec3_of_decCheck_none hb (decCheck_of_decodeMayRun hrun), rfl, fun h => resultWord_decValue_exact h 0,
    fun h => resultWord_decValue_exact h 1, fun h => resultWord_decValue_exact h 2⟩

/-- The value of an element depends only on the bytes that hold a bit of it: at width 12 the trio's third byte is
multiplied by 2^16, above the even element, and the first byte is below the odd one. -/
theorem arithmeticValue_congr {m m' : Memory} {b k : Nat} {w : Width}
    (h : ∀ o ∈ elementBytes k w, m.read (b + o) = m'.read (b + o)) : arithmeticValue m b k w = arithmeticValue m' b k w := by
  cases w with
  | w4 => simp only [arithmeticValue, h (k / 2) (by simp [elementBytes])]
  | w8 => simp only [arithmeticValue, h k (by simp [elementBytes])]
  | w12 =>
    have hm := (m.read (b + k / 2 * 3)).isLt
    have hm' := (m'.read (b + k / 2 * 3)).isLt
    have hmid : m.read (b + k / 2 * 3 + 1) = m'.read (b + k / 2 * 3 + 1) :=
      h (k / 2 * 3 + 1) (by by_cases hk : k % 2 = 0 <;> simp [elementBytes, hk])
    simp only [arithmeticValue, hmid]
    by_cases hk : k % 2 = 0
    · have hlow := h (k / 2 * 3) (by simp [elementBytes, hk])
      rw [if_pos hk, if_pos hk, hlow]
      omega
    · have hhigh : m.read (b + k / 2 * 3 + 2) = m'.read (b + k / 2 * 3 + 2) :=
        h (k / 2 * 3 + 2) (by simp [elementBytes, hk])
      rw [if_neg hk, if_neg hk, hhigh]
      have hbyte := (m'.read (b + k / 2 * 3 + 1)).isLt
      omega
  | w16 =>
    have hlow := h (2 * k) (by simp [elementBytes])
    have hhigh : m.read (b + 2 * k + 1) = m'.read (b + 2 * k + 1) := h (2 * k + 1) (by simp [elementBytes])
    simp only [arithmeticValue, hlow, hhigh]

/-- An element whose destination bytes nobody else has written meanwhile is in the buffer, truncated. -/
theorem arithmeticValue_of_destination_unraced {s : State} {v : List Elem} {w : Width} {k : Nat} (hs : s.mem.wf = true)
    (hk : k < v.length) (h : ∀ o ∈ elementBytes k w, s.raced (s.buf.toNat + o) = false) :
    arithmeticValue (s.mem.writeCells (destCells s (image v w))) s.buf.toNat k w = v[k].toNat % 2 ^ w.bits := by
  have hcells : ((cellsFrom s.buf.toNat (image v w)).map Prod.fst).Nodup :=
    map_fst_destCells s _ ▸ nodup_destCells s (image v w)
  calc arithmeticValue (s.mem.writeCells (destCells s (image v w))) s.buf.toNat k w
      = arithmeticValue (encodedMem s v w) s.buf.toNat k w := arithmeticValue_congr fun o ho => by
        rw [encodedMem, read_writeCells (nodup_destCells s _) hs, read_writeCells hcells hs, cellAt_destCells (h o ho)]
    _ = (decodeAt (encodedMem s v w).read s.buf.toNat k w).toNat := (decodeAt_toNat ..).symm
    _ = v[k].toNat % 2 ^ w.bits := by
        rw [decodeAt_image v _ k hk (holdsAt_encodedMem hs), truncElem_toNat]

/-- Settles O54: an element's source bytes decide its place in the source, its destination bytes its value in the buffer. -/
theorem unracedElementsOfEncodesAreExact : Obligations.UnracedElementsOfEncodesAreExact := by
  refine ⟨fun b w s hs hb hw hrun => ?_, fun b w s hs hb hw hrun => ?_⟩
  · have hc := (encCheck_eq_none_iff_encodeMayRun w _ s).2 hrun
    refine ⟨_, exec_of_operandCheck_none (i := .enc8 b) (legalWidth_enc8 hb hw) hc, rfl, fun k hk hsrc hdst => ?_⟩
    have helem : (sourceOf8 s)[k]'(by simpa using hk) = (s.mem.read (s.src.toNat + k)).setWidth 16 := by
      simp only [sourceOf8, List.getElem_map, List.getElem_range, srcElem8_exact hsrc]
    refine (arithmeticValue_of_destination_unraced hs (by simpa using hk) hdst).trans ?_
    rw [helem, BitVec.toNat_setWidth_of_le (by decide)]
  · have hc := (encCheck_eq_none_iff_encodeMayRun w _ s).2 hrun
    refine ⟨_, exec_of_operandCheck_none (i := .enc16 b) (legalWidth_enc16 hb hw) hc, rfl,
      fun k hk hlow hhigh hdst => ?_⟩
    have helem : (sourceOf16 s)[k]'(by simpa using hk) =
        le16 (s.mem.read (s.src.toNat + 2 * k)) (s.mem.read (s.src.toNat + 2 * k + 1)) := by
      simp only [sourceOf16, List.getElem_map, List.getElem_range, srcElem16_exact hlow hhigh]
    refine (arithmeticValue_of_destination_unraced hs (by simpa using hk) hdst).trans ?_
    rw [helem, le16_toNat]

end Sys2Proof.Machine
end

section
/-! SUPPORT. A step while a command is in flight (10_state.md R30, R35; 20_memory.md R47, R49), event by event, and the end of
the command in it. -/

namespace Sys2Proof.Machine

/-! ## The event that is served, or that waits -/

/-- The accesses that wait for a command are those of 10_state.md R30 and those of the issuing host. -/
theorem waitsFor_of_isWaitingAccess {f : InFlight} {e : HostEvent} (h : isWaitingAccess f.issuer e) :
    e.waitsFor f = true := by
  rcases h with ⟨_, _, _, _, rfl⟩ | ⟨_, _, rfl⟩ | ⟨_, o, b, rfl, hform⟩ | ⟨_, rfl⟩ | ⟨_, _, rfl⟩ | ⟨_, rfl⟩
  · rfl
  · rfl
  · have hstalls : ¬ (o = offsetOf .status ∧ b = 32) := hform
    simp [HostEvent.waitsFor, HostEvent.stalls, not_and_or.1 hstalls]
  · simp [HostEvent.waitsFor, HostEvent.agent]
  · simp [HostEvent.waitsFor, HostEvent.agent]
  · simp [HostEvent.waitsFor, HostEvent.agent]

section inflight
variable {s : State} {f : InFlight} {rest : List HostEvent} (hf : s.inflight = some f)
include hf

theorem step_of_noEvent (hp : s.pending = []) : step s = runStarted s := by
  simp only [step, hf, serveInFlight, hp]

theorem step_statusRead {h : Nat} (hp : s.pending = .regRead h (offsetOf .status) 32 :: rest) (hh : h ≠ f.issuer) :
    step s = .next ((s.withPending rest).withLastRead s.status.word) := by
  have hw : (HostEvent.regRead h (offsetOf .status) 32).waitsFor f = false := by
    simp [HostEvent.waitsFor, HostEvent.stalls, HostEvent.agent, hh]
  simp only [step, hf, serveInFlight, hp, hw, Bool.false_eq_true, if_false]
  rfl

theorem step_raceMemWrite {g : Agent} {a : Nat} {bs : List Byte} (hp : s.pending = .memWrite g a bs :: rest)
    (hg : g ≠ .host f.issuer) : step s = raceMemWrite a bs (s.withPending rest) := by
  have hw : (HostEvent.memWrite g a bs).waitsFor f = false := by
    simp [HostEvent.waitsFor, HostEvent.stalls, HostEvent.agent, hg]
  simp only [step, hf, serveInFlight, hp, hw, Bool.false_eq_true, if_false]

theorem step_raceMemRead {g : Agent} {a : Nat} (hp : s.pending = .memRead g a :: rest) (hg : g ≠ .host f.issuer) :
    step s = raceMemRead a (s.withPending rest) := by
  have hw : (HostEvent.memRead g a).waitsFor f = false := by
    simp [HostEvent.waitsFor, HostEvent.stalls, HostEvent.agent, hg]
  simp only [step, hf, serveInFlight, hp, hw, Bool.false_eq_true, if_false]

theorem step_abandon (hp : s.pending = .reset :: rest) : step s = .next (abandon (s.withPending rest)) := by
  have hw : HostEvent.reset.waitsFor f = false := rfl
  simp only [step, hf, serveInFlight, hp, hw, Bool.false_eq_true, if_false]

end inflight

/-! ## The completion -/

theorem Effect.memSize_eq {s u : State} (h : Effect s u) : u.memSize = s.memSize := by cases h <;> rfl

theorem Completes.inflight_eq {s t : State} (h : Completes s t) : t.inflight = none := by cases h <;> rfl

theorem Completes.busy_eq {s t : State} (h : Completes s t) : t.status.busy = false := by cases h <;> rfl

theorem Completes.memSize_eq {s t : State} (h : Completes s t) : t.memSize = s.memSize := by
  cases h with
  | failed e he => rfl
  | done hu => exact hu.memSize_eq

/-- A started command always completes (70_reset_and_hazards.md R115). -/
theorem exists_completes (s : State) : ∃ t, runStarted s = .next t ∧ Completes s t := by
  rcases runStarted_cases s with ⟨e, he, h⟩ | ⟨u, hu, h⟩
  · exact ⟨_, h, .failed e he⟩
  · exact ⟨_, h, .done hu⟩

theorem runStarted_of_decode_ok {s : State} {i : Instr} (hd : decode s.cmd = .ok i) : runStarted s = exec i s := by
  simp only [runStarted, hd]

theorem inflightCells_of_decode_ok {s : State} {i : Instr} (hd : decode s.cmd = .ok i) :
    inflightCells s = commandCells i s := by
  simp only [inflightCells, hd]

theorem inflightCells_of_decode_error {s : State} {e : DecodeError} (hd : decode s.cmd = .error e) :
    inflightCells s = [] := by
  simp only [inflightCells, hd]

/-- How a started command ends: a failure, of which memory shows nothing, or its operation's change. -/
inductive StartedEnds (s : State) : State → Prop where
  | failed (code : BitVec 4) (hcells : inflightCells s = []) : StartedEnds s (failedState code s)
  | done (i : Instr) (w : Width) (hd : decode s.cmd = .ok i) (hb : i.bpk.toNat = w.bits)
      (hcells : inflightCells s = (operandChange w s i.opcode).cells) :
      StartedEnds s (doneState ((operandChange w s i.opcode).apply s))

theorem startedEnds_of_runStarted {s t : State} (h : runStarted s = .next t) : StartedEnds s t := by
  cases hd : decode s.cmd with
  | error e =>
    have he : ErrorCode.illegalCommand ≠ .none := by decide
    simp only [runStarted, hd, raise, complete_eq_failedState he] at h
    obtain rfl := Host.Outcome.next.inj h
    exact .failed _ (inflightCells_of_decode_error hd)
  | ok i =>
    have hcells := inflightCells_of_decode_ok hd
    rw [runStarted_of_decode_ok hd] at h
    cases commandEnds_of_exec h with
    | failed e hc => exact .failed _ (hcells.trans (commandCells_of_instrCheck_some hc))
    | done w hl hc =>
      obtain ⟨hb, -⟩ := (legalWidth_eq_some _ _ w).1 hl
      exact .done i w hd hb (hcells.trans (commandCells_of_operandCheck_none hl hc))

/-- A started command leaves its cells in memory. -/
theorem mem_of_runStarted {s t : State} (h : runStarted s = .next t) : t.mem = s.mem.writeCells (inflightCells s) := by
  cases startedEnds_of_runStarted h with
  | failed code hcells => rw [hcells]; rfl
  | done i w hd hb hcells =>
    rw [hcells]
    exact (operandChange w s i.opcode).apply_mem s

theorem nodup_inflightCells (s : State) : ((inflightCells s).map Prod.fst).Nodup := by
  cases hd : decode s.cmd with
  | error e => simp [inflightCells_of_decode_error hd]
  | ok i =>
    rw [inflightCells_of_decode_ok hd]
    exact nodup_commandCells i s

/-- The cells of a command in flight are those of an encode, in `[BUF, BUF + size)` (42_encoder.md R83). -/
theorem mem_inflightCells {s : State} {c : Host.Cell} (h : c ∈ inflightCells s) :
    ∃ (i : Instr) (w : Width), decode s.cmd = .ok i ∧ (i.opcode = .enc8 ∨ i.opcode = .enc16) ∧ i.bpk.toNat = w.bits ∧
      s.buf.toNat ≤ c.1 ∧ c.1 < s.buf.toNat + size s.n.toNat w := by
  obtain ⟨t, ht, -⟩ := exists_completes s
  cases startedEnds_of_runStarted ht with
  | failed code hcells => simp [hcells] at h
  | done i w hd hb hcells =>
    rw [hcells] at h
    have henc : i.opcode = .enc8 ∨ i.opcode = .enc16 := by
      cases i with
      | size b | dec b | dec3 b => cases h
      | enc8 b => exact .inl rfl
      | enc16 b => exact .inr rfl
    obtain ⟨v, hv, hchange⟩ := operandChange_of_encoder henc w s
    rw [hchange] at h
    have hrange := mem_destCells h
    rw [length_image, hv] at hrange
    exact ⟨i, w, hd, henc, hb, hrange⟩

@[simp] theorem inflightCells_withPending (s : State) (es : List HostEvent) :
    inflightCells (s.withPending es) = inflightCells s := by
  cases hd : decode s.cmd with
  | error e => rw [inflightCells_of_decode_error hd]; exact inflightCells_of_decode_error hd
  | ok i =>
    rw [inflightCells_of_decode_ok hd]
    refine (inflightCells_of_decode_ok hd).trans ?_
    cases i <;> rfl

/-! ## Accesses that wait -/

theorem status_word_getLsbD_zero (st : Status) : st.word.getLsbD 0 = st.busy := by simp [Status.word]

/-- A step that leaves a command in flight changes no operand and no result register. -/
theorem registers_of_step_inFlight {s t : State} (hf : s.inflight.isSome = true) (h : step s = .next t)
    (ht : t.inflight.isSome = true) :
    (t.n, t.src, t.buf, t.buflen, t.idx0, t.idx1, t.idx2) = (s.n, s.src, s.buf, s.buflen, s.idx0, s.idx1, s.idx2) ∧
      (t.res0, t.res1, t.res2) = (s.res0, s.res1, s.res2) := by
  cases step_to h with
  | statusRead | raceRead => exact ⟨rfl, rfl⟩
  | raceWrite ag a bs =>
    obtain ⟨g, hg⟩ := touch_eq ((s.withPending _).withMem (s.mem.writeCells (cellsFrom a bs)))
      ((cellsFrom a bs).map Prod.fst)
    rw [hg]
    exact ⟨rfl, rfl⟩
  | completes _ _ hc => simp [hc.inflight_eq] at ht
  | abandoned => cases ht
  | idle hn | ignored hn | operand _ _ _ hn | read _ hn | command _ _ hn | begins _ _ hn | memWrite _ _ _ hn
  | reset hn => simp [hn] at hf

/-- Settles O47: a waiting access meets the step that completes the command, and a STATUS read returns the BUSY of the
moment. -/
theorem registerAccessesWaitForTheCommand : Obligations.RegisterAccessesWaitForTheCommand := by
  intro s f hf
  refine ⟨fun e rest hp hw => ?_, fun h rest hp hh hbusy => ?_, fun t h ht => ?_⟩
  · obtain ⟨t, ht, hc⟩ := exists_completes s
    exact ⟨t, (step_of_waitsFor hf hp (waitsFor_of_isWaitingAccess hw)).trans ht, hc.pending_eq, hc.inflight_eq,
      hc.busy_eq⟩
  · exact ⟨_, step_statusRead hf hp hh, (status_word_getLsbD_zero s.status).trans hbusy⟩
  · exact registers_of_step_inFlight (by simp [hf]) h ht

theorem runSteps_one (s : State) : runSteps 1 s = step s := by
  cases h : step s <;> simp [runSteps, h]

theorem runSteps_two {s u : State} (h : step s = .next u) : runSteps 2 s = step u := by
  rw [runSteps_succ h, runSteps_one]

/-- A byte read between commands (20_memory.md R46, R47). -/
theorem step_memRead {g : Agent} {s : State} {a : Nat} {rest : List HostEvent} (hf : s.inflight = none)
    (hp : s.pending = .memRead g a :: rest) (ha : a < s.memSize) :
    step s = .next { s with pending := rest, lastRead := some ((s.mem.read a).setWidth 32) } := by
  have hin : inMem s.memSize a 1 = true := (inMem_eq_true ..).2 (.inr ha)
  simp only [step_of_idle hf hp, serveIdle, serveMemRead, withPending_memSize, hin, if_true]
  rfl

/-- Settles O48: the access of the issuing host waits, so that the command completes first and the access is then served
between commands. -/
theorem issuingHostSeesItsCommandCompleted : Obligations.IssuingHostSeesItsCommandCompleted := by
  refine ⟨fun s f a rest hf hp ha => ?_, fun s f rest hf hp => ?_, fun h w s a rest hf hp ha => ?_⟩
  · obtain ⟨u, hu, hc⟩ := exists_completes s
    have hwait : isWaitingAccess f.issuer (.memRead (.host f.issuer) a) := by simp [isWaitingAccess]
    have hstep := (step_of_waitsFor hf hp (waitsFor_of_isWaitingAccess hwait)).trans hu
    refine ⟨u, hu, (runSteps_two hstep).trans ?_⟩
    exact step_memRead hc.inflight_eq (hc.pending_eq.trans hp) (hc.memSize_eq ▸ ha)
  · obtain ⟨u, hu, hc⟩ := exists_completes s
    have hwait : isWaitingAccess f.issuer (.regRead f.issuer 0x08 32) := by simp [isWaitingAccess]
    have hstep := (step_of_waitsFor hf hp (waitsFor_of_isWaitingAccess hwait)).trans hu
    refine ⟨u, u.status.word, hu, (runSteps_two hstep).trans ?_, (status_word_getLsbD_zero _).trans hc.busy_eq⟩
    exact step_regRead hc.inflight_eq (hc.pending_eq.trans hp) rfl
  · obtain ⟨u, hu, hc⟩ := exists_completes (startCommand h w (s.withPending (.memRead (.host h) a :: rest)))
    refine ⟨u, hu, (runSteps_two ((step_cmdWrite hf hp).trans hu)).trans ?_⟩
    exact step_memRead hc.inflight_eq hc.pending_eq (hc.memSize_eq ▸ ha)

/-! ## A command that begins -/

theorem step_cmdBegin {h : Nat} {s : State} {w : Word} {rest : List HostEvent} (hf : s.inflight = none)
    (hp : s.pending = .cmdBegin h w :: rest) : step s = beginCommand h w (s.withPending rest) :=
  step_of_idle hf hp

theorem beginCommand_legal {w : Word} (hw : isLegalWord w = true) (h : Nat) (s : State) :
    beginCommand h w s = .next (startCommand h w s) := by
  obtain ⟨i, hd, hi⟩ := (isLegalWord_eq_true w).1 hw
  simp only [beginCommand, hd, hi, if_true]

theorem beginCommand_illegal {w : Word} (hw : isLegalWord w = false) (h : Nat) (s : State) :
    beginCommand h w s = execute h w s := by
  cases hd : decode w with
  | error e => simp only [beginCommand, hd]
  | ok i =>
    have hi : i.wellFormed = false := by simpa [isLegalWord, hd] using hw
    simp only [beginCommand, hd, hi, Bool.false_eq_true, if_false]

/-- A word that is not legal spells no command, or a command with an illegal width (30_encoding.md R59). -/
theorem execute_of_illegal {w : Word} (hw : isLegalWord w = false) (h : Nat) (s : State) :
    ∃ code, (code = 1 ∨ code = 2) ∧ execute h w s = .next (failedState code (s.withCmd w)) := by
  cases hd : decode w with
  | error e => exact ⟨1, .inl rfl, execute_of_decode_error hd h s⟩
  | ok i =>
    have hi : i.wellFormed = false := by simpa [isLegalWord, hd] using hw
    rw [execute_of_decode_ok hd, exec_of_illegalBpk ((wellFormed_eq_false i).1 hi)]
    exact ⟨2, .inr rfl, rfl⟩

/-- Settles O50: the begin of an illegal word is the whole CMD write, which fails. -/
theorem illegalWordCompletesAtOnce : Obligations.IllegalWordCompletesAtOnce := by
  intro h s w rest hf hp hw
  obtain ⟨code, hcode, hend⟩ := execute_of_illegal hw h (s.withPending rest)
  rw [step_cmdBegin hf hp, beginCommand_illegal hw, hend]
  exact ⟨_, rfl, rfl, rfl, rfl, hcode⟩

/-- Settles O49: the step after the begin completes the command from the started state, from which the whole CMD write
runs it. -/
theorem beginThenCompleteIsOneStep : Obligations.BeginThenCompleteIsOneStep := by
  intro h s w rest hf hp hw hwait
  refine ⟨startCommand h w (s.withPending rest), ?_, rfl, rfl, ?_⟩
  · rw [step_cmdBegin hf hp, beginCommand_legal hw]
  · have hwhole : step (s.withPending (cmdWrite h w :: rest)) = execute h w (s.withPending rest) :=
      step_cmdWrite (s := s.withPending (cmdWrite h w :: rest)) hf rfl
    rw [hwhole]
    cases rest with
    | nil => exact step_of_noEvent rfl rfl
    | cons e rest => exact step_of_waitsFor rfl rfl (waitsFor_of_isWaitingAccess (hwait e rfl))

/-! ## Other agents while a command is in flight -/

/-- A byte of memory that another agent reads meanwhile is the old one, or the one the command leaves. -/
theorem racedByte_old_or_new {s : State} (hs : s.mem.wf = true) (a : Nat) :
    racedByte a s = s.mem.read a ∨ ∃ u, runStarted s = .next u ∧ racedByte a s = u.mem.read a := by
  cases hc : cellAt (inflightCells s) a with
  | none => exact .inl (by simp only [racedByte, hc]; rfl)
  | some new =>
    by_cases hp : Config.freeChoice s.draws a = true
    · obtain ⟨u, hu, -⟩ := exists_completes s
      refine .inr ⟨u, hu, ?_⟩
      rw [mem_of_runStarted hu, read_writeCells (nodup_inflightCells s) hs, hc]
      simp only [racedByte, hc, hp, if_true]
      rfl
    · refine .inl ?_
      simp only [racedByte, hc, hp]
      rfl

/-- Settles O51: the read is served while the command stays in flight, and what it returns is `racedByte`. -/
theorem racedReadIsOldOrNew : Obligations.RacedReadIsOldOrNew := by
  intro s f g a rest hs hf hg hp ha
  have hin : inMem s.memSize a 1 = true := (inMem_eq_true ..).2 (.inr ha)
  have hbyte : racedByte a (s.withPending rest) = racedByte a s := by
    simp only [racedByte, inflightCells_withPending]
    rfl
  refine ⟨racedByte a s, ?_, racedByte_old_or_new hs a⟩
  simp only [step_raceMemRead hf hp hg, raceMemRead, withPending_memSize, hin, if_true, hbyte]
  rfl

/-- Bytes written to consecutive addresses land there, and every other address is left alone. -/
theorem read_writeCells_bytes {m : Memory} (hm : m.wf = true) (a : Nat) (bs : List Byte) :
    (∀ j, j < bs.length → bs[j]? = some ((m.writeCells (cellsFrom a bs)).read (a + j))) ∧
      ∀ x, x < a ∨ a + bs.length ≤ x → (m.writeCells (cellsFrom a bs)).read x = m.read x := by
  refine ⟨fun j hj => ?_, fun x hx => read_writeCells_cellsFrom_other bs m a x hx⟩
  rw [read_writeCells_cellsFrom bs m a j hm hj, List.getElem?_eq_getElem hj]

theorem touch_of_inflight {s : State} {f : InFlight} (hf : s.inflight = some f) (as : List Nat) :
    s.touch as = s.withInflight (some { f with touched := as ++ f.touched }) := by
  simp only [State.touch, hf]

/-- Settles O52: the bytes are written like a host's between commands, and their addresses are recorded. -/
theorem agentWriteDuringACommand : Obligations.AgentWriteDuringACommand := by
  intro s f g a bs rest hs hf hg hp ha
  have hin : inMem s.memSize a bs.length = true := (inMem_eq_true ..).2 (.inr ha)
  obtain ⟨hbytes, hframe⟩ := read_writeCells_bytes hs a bs
  refine ⟨s.mem.writeCells (cellsFrom a bs), (cellsFrom a bs).map Prod.fst ++ f.touched, ?_, hbytes, hframe,
    fun x => ?_⟩
  · have htouch := touch_of_inflight (s := (s.withPending rest).withMem (s.mem.writeCells (cellsFrom a bs))) hf
    simp only [step_raceMemWrite hf hp hg, raceMemWrite, withPending_memSize, withPending_mem, hin, if_true, htouch]
    rfl
  · rw [List.mem_append, mem_map_cellsFrom, or_comm]

/-- Settles O55: between commands the range check passes and the access is performed. -/
theorem hostMemoryAccesses : Obligations.HostMemoryAccesses := by
  refine ⟨fun g s a bs rest hs hf hp ha => ?_, fun g s a rest hf hp ha => step_memRead hf hp ha⟩
  have hin : inMem s.memSize a bs.length = true := (inMem_eq_true ..).2 (.inr ha)
  refine ⟨s.mem.writeCells (cellsFrom a bs), ?_, read_writeCells_bytes hs a bs⟩
  simp only [step_of_idle hf hp, serveIdle, serveMemWrite, withPending_memSize, hin, if_true]
  rfl

/-! ## A reset that cuts a command short -/

/-- After some of the cells of a started command, by address, every byte is the old one or the one the command leaves. -/
theorem read_writeCells_filter {s : State} (hs : s.mem.wf = true) (p : Nat → Bool) (a : Nat) :
    (s.mem.writeCells ((inflightCells s).filter fun c => p c.1)).read a =
      if p a = true then (s.mem.writeCells (inflightCells s)).read a else s.mem.read a := by
  have hall := nodup_inflightCells s
  have hsome : (((inflightCells s).filter fun c => p c.1).map Prod.fst).Nodup :=
    hall.sublist (List.filter_sublist.map _)
  rw [read_writeCells hsome hs, read_writeCells hall hs, cellAt_filter]
  split_ifs <;> rfl

/-- Settles O57: the reset performs a free choice of the command's cells, which an encode alone has, in its destination
range. -/
theorem resetDuringACommand : Obligations.ResetDuringACommand := by
  intro s f rest hs hf hp
  have hmem (a : Nat) : (abandon (s.withPending rest)).mem.read a =
      if Config.freeChoice s.draws a = true then (s.mem.writeCells (inflightCells s)).read a else s.mem.read a := by
    rw [abandon_mem, inflightCells_withPending]
    exact read_writeCells_filter hs (Config.freeChoice s.draws) a
  refine ⟨_, step_abandon hf hp, fun r => readReg_applyReset r _, rfl, rfl, fun a => ?_, fun a ha => ?_⟩
  · rw [hmem]
    split_ifs
    · obtain ⟨u, hu, -⟩ := exists_completes s
      exact .inr ⟨u, hu, by rw [mem_of_runStarted hu]⟩
    · exact .inl rfl
  · have hcell : a ∈ (inflightCells s).map Prod.fst := by
      by_contra hout
      refine ha ?_
      rw [hmem, read_writeCells (nodup_inflightCells s) hs, cellAt_eq_none.2 hout]
      exact ite_self _
    obtain ⟨c, hc, rfl⟩ := List.mem_map.1 hcell
    exact mem_inflightCells hc

end Sys2Proof.Machine
end

section
/-! SUPPORT. What a step can change (10_state.md R28, 20_memory.md R36, 42_encoder.md R83), and what can stop it (10_state.md
R29, 20_memory.md R36). -/

namespace Sys2Proof.Machine

/-! ## Result registers and memory over a step -/

/-- A step that completes a command ends a started one, whose memory and RES registers were those of the state. -/
theorem startedEnds_of_completesCommand {s t : State} (hk : s.completesCommand = true) (h : step s = .next t) :
    ∃ u, StartedEnds u t ∧ u.mem = s.mem ∧ u.memSize = s.memSize ∧ u.res0 = s.res0 ∧ u.res1 = s.res1 ∧
      u.res2 = s.res2 := by
  obtain ⟨u, hu, -, hsame⟩ := step_of_completesCommand hk
  exact ⟨u, startedEnds_of_runStarted (hu.symm.trans h), hsame⟩

/-- Only a completion and a reset change a RES register (10_state.md R28). -/
theorem step_keeps_results {s t : State} (hk : s.completesCommand = false) (h : step s = .next t) :
    (t.res0 = s.res0 ∧ t.res1 = s.res1 ∧ t.res2 = s.res2) ∨ ∃ rest, s.pending = .reset :: rest := by
  cases step_to h with
  | command _ _ _ _ hk' => simp [hk] at hk'
  | completes _ hk' => simp [hk] at hk'
  | reset _ hp => exact .inr ⟨_, hp⟩
  | abandoned _ hp => exact .inr ⟨_, hp⟩
  | operand r v => exact .inl (by cases r <;> exact ⟨rfl, rfl, rfl⟩)
  | raceWrite ag a bs =>
    obtain ⟨g, hg⟩ := touch_eq ((s.withPending _).withMem (s.mem.writeCells (cellsFrom a bs)))
      ((cellsFrom a bs).map Prod.fst)
    rw [hg]
    exact .inl ⟨rfl, rfl, rfl⟩
  | idle | ignored | read | begins | memWrite | statusRead | raceRead => exact .inl ⟨rfl, rfl, rfl⟩

/-- Settles O37: a completion that changes a RES register makes the change of a SIZE, DEC or DEC3. -/
theorem onlyResultsChangeRes : Obligations.OnlyResultsChangeRes := by
  intro s t h hres
  cases hk : s.completesCommand with
  | false =>
    rcases step_keeps_results hk h with ⟨h0, h1, h2⟩ | hreset
    · simp [h0, h1, h2] at hres
    · exact .inl hreset
  | true =>
    obtain ⟨u, hu, -, -, h0, h1, h2⟩ := startedEnds_of_completesCommand hk h
    rw [← h0, ← h1, ← h2] at hres
    cases hu with
    | failed code _ => simp [failedState] at hres
    | done i w hd =>
      refine .inr ⟨rfl, rfl, rfl, i, ?_, ?_⟩
      · cases i <;> exact hd
      · cases i with
        | size b => exact .inl rfl
        | dec b => exact .inr (.inl rfl)
        | dec3 b => exact .inr (.inr rfl)
        | enc8 b | enc16 b => simp [Instr.opcode, operandChange, Change.apply, doneState] at hres

theorem step_memSize {s t : State} (h : step s = .next t) : t.memSize = s.memSize := by
  cases step_to h with
  | command _ _ _ _ _ hc => exact hc.memSize_eq
  | completes _ _ hc => exact hc.memSize_eq
  | operand | raceWrite => simp
  | idle | ignored | read | begins | memWrite | reset | statusRead | raceRead | abandoned => rfl

/-- A step that completes no command changes memory by a memory write, or by a reset that meets a command with cells to
write. -/
theorem step_changes_mem {s t : State} (hk : s.completesCommand = false) (h : step s = .next t) (hm : t.mem ≠ s.mem) :
    (∃ g a bs rest, s.pending = .memWrite g a bs :: rest) ∨
      (s.inflight.isSome = true ∧ (∃ rest, s.pending = .reset :: rest) ∧ inflightCells s ≠ []) := by
  cases step_to h with
  | command _ _ _ _ hk' => simp [hk] at hk'
  | completes _ hk' => simp [hk] at hk'
  | memWrite ag a bs _ hp => exact .inl ⟨ag, a, bs, _, hp⟩
  | raceWrite ag a bs _ hp => exact .inl ⟨ag, a, bs, _, hp⟩
  | abandoned hf hp =>
    refine .inr ⟨by simp [hf], ⟨_, hp⟩, fun hcells => hm ?_⟩
    rw [abandon_mem, inflightCells_withPending, hcells]
    rfl
  | operand => simp at hm
  | idle | ignored | read | begins | reset | statusRead | raceRead => exact absurd rfl hm

/-- Settles O38: a completion that changes memory makes the change of an encode, and a reset writes cells of an encode. -/
theorem onlyTheseStepsChangeMemory : Obligations.OnlyTheseStepsChangeMemory := by
  intro s t h
  refine ⟨step_memSize h, fun hm => ?_⟩
  cases hk : s.completesCommand with
  | false =>
    rcases step_changes_mem hk h hm with hwrite | ⟨hf, ⟨rest, hp⟩, hcells⟩
    · exact .inl ⟨rfl, hwrite⟩
    · obtain ⟨c, hc⟩ := List.exists_mem_of_ne_nil _ hcells
      obtain ⟨i, w, hd, henc, -⟩ := mem_inflightCells hc
      exact .inr (.inl ⟨hf, rest, i, hp, hd, henc⟩)
  | true =>
    obtain ⟨u, hu, hmem, -⟩ := startedEnds_of_completesCommand hk h
    rw [← hmem] at hm
    cases hu with
    | failed code _ => exact absurd rfl hm
    | done i w hd =>
      refine .inr (.inr ⟨rfl, rfl, rfl, i, ?_, ?_⟩)
      · cases i <;> exact hd
      · cases i with
        | enc8 b => exact .inl rfl
        | enc16 b => exact .inr rfl
        | size b | dec b | dec3 b => exact absurd rfl hm

/-! ## What stops a step -/

/-- A memory event that leaves `[0, MEM_SIZE)` (log entry 7). -/
def HostEvent.LeavesMemory (size : Nat) (e : HostEvent) : Prop :=
  (∃ g a bs, e = .memWrite g a bs ∧ bs ≠ [] ∧ size < a + bs.length) ∨ ∃ g a, e = .memRead g a ∧ size ≤ a

/-- A register access that is not 32 bits wide or not at a multiple of 4 (10_state.md R29). -/
def HostEvent.IllFormed (e : HostEvent) : Prop :=
  (∃ h o b v, e = .regWrite h o b v ∧ ¬ (b = 32 ∧ o.val % 4 = 0)) ∨
    ∃ h o b, e = .regRead h o b ∧ ¬ (b = 32 ∧ o.val % 4 = 0)

/-- What a step can answer: a next state, or a stop and the event that brings it about. -/
inductive StepAnswer (s : State) : Host.Outcome State Fault Refusal → Prop where
  | next (t : State) : StepAnswer s (.next t)
  | fault {e : HostEvent} {rest : List HostEvent} (hp : s.pending = e :: rest) (he : e.LeavesMemory s.memSize) :
      StepAnswer s (.fault .noSuchAddress)
  | refused {e : HostEvent} {rest : List HostEvent} (hf : s.inflight = none) (hp : s.pending = e :: rest)
      (he : e.IllFormed) : StepAnswer s (.refused .registerAccessForm)

theorem stepAnswer_runStarted (s u : State) : StepAnswer s (runStarted u) := by
  obtain ⟨t, ht, -⟩ := exists_completes u
  rw [ht]
  exact .next t

section answer
variable {s : State} {rest : List HostEvent}

/-- Byte writes are performed inside memory and fault outside it. -/
theorem stepAnswer_memWrite {g : Agent} {a : Nat} {bs : List Byte} (t : State)
    (hp : s.pending = .memWrite g a bs :: rest) :
    StepAnswer s (if inMem s.memSize a bs.length then .next t else .fault .noSuchAddress) := by
  split_ifs with hin
  · exact .next t
  · rw [Bool.not_eq_true, inMem_eq_false, ne_eq, List.length_eq_zero_iff] at hin
    exact .fault hp (.inl ⟨g, a, bs, rfl, hin⟩)

/-- A byte read is performed inside memory and faults outside it. -/
theorem stepAnswer_memRead {g : Agent} {a : Nat} (t : State) (hp : s.pending = .memRead g a :: rest) :
    StepAnswer s (if inMem s.memSize a 1 then .next t else .fault .noSuchAddress) := by
  split_ifs with hin
  · exact .next t
  · rw [Bool.not_eq_true, inMem_eq_false] at hin
    exact .fault hp (.inr ⟨g, a, rfl, by omega⟩)

theorem stepAnswer_windowWrite (h : Nat) (o : Fin 64) (v : Word) (u : State) : StepAnswer s (windowWrite h o v u) := by
  unfold windowWrite
  cases regAt o with
  | none => exact .next u
  | some r =>
    dsimp only
    split_ifs
    · exact stepAnswer_runStarted s _
    · exact .next _

theorem stepAnswer_beginCommand (h : Nat) (w : Word) (u : State) : StepAnswer s (beginCommand h w u) := by
  cases hw : isLegalWord w with
  | true => rw [beginCommand_legal hw]; exact .next _
  | false => rw [beginCommand_illegal hw]; exact stepAnswer_runStarted s _

/-- Between commands a register access is refused by its form, a memory access faults by its range, and every other event is
served. -/
theorem stepAnswer_of_idle {e : HostEvent} (hf : s.inflight = none) (hp : s.pending = e :: rest) :
    StepAnswer s (step s) := by
  cases e with
  | regWrite h o b v =>
    by_cases ha : b = 32 ∧ o.val % 4 = 0
    · obtain ⟨rfl, ha⟩ := ha
      rw [step_regWrite hf hp ha]
      exact stepAnswer_windowWrite h o v _
    · rw [step_regWrite_refused hf hp ha]
      exact .refused hf hp (.inl ⟨h, o, b, v, rfl, ha⟩)
  | regRead h o b =>
    by_cases ha : b = 32 ∧ o.val % 4 = 0
    · obtain ⟨rfl, ha⟩ := ha
      rw [step_regRead hf hp ha]
      exact .next _
    · rw [step_regRead_refused hf hp ha]
      exact .refused hf hp (.inr ⟨h, o, b, rfl, ha⟩)
  | cmdBegin h w =>
    rw [step_cmdBegin hf hp]
    exact stepAnswer_beginCommand h w _
  | memWrite g a bs =>
    rw [step_of_idle hf hp]
    exact stepAnswer_memWrite _ hp
  | memRead g a =>
    rw [step_of_idle hf hp]
    exact stepAnswer_memRead _ hp
  | reset =>
    rw [step_reset hf hp]
    exact .next _

/-- With a command in flight an access waits, or it is served; only the memory access of another agent can then stop. -/
theorem stepAnswer_of_inflight {f : InFlight} {e : HostEvent} (hf : s.inflight = some f) (hp : s.pending = e :: rest) :
    StepAnswer s (step s) := by
  by_cases hw : e.waitsFor f = true
  · rw [step_of_waitsFor hf hp hw]
    exact stepAnswer_runStarted s s
  · have hagent : e.agent ≠ some (.host f.issuer) := by
      rintro h
      simp [HostEvent.waitsFor, h] at hw
    cases e with
    | regWrite h o b v => exact absurd rfl hw
    | cmdBegin h w => exact absurd rfl hw
    | regRead h o b =>
      obtain ⟨rfl, rfl⟩ : o = offsetOf .status ∧ b = 32 := by
        simp only [HostEvent.waitsFor, HostEvent.stalls, Bool.or_eq_true, not_or] at hw
        simpa using hw.1
      rw [step_statusRead hf hp fun hh => hagent (by rw [HostEvent.agent, hh])]
      exact .next _
    | memWrite g a bs =>
      rw [step_raceMemWrite hf hp fun hg => hagent (by rw [HostEvent.agent, hg])]
      exact stepAnswer_memWrite _ hp
    | memRead g a =>
      rw [step_raceMemRead hf hp fun hg => hagent (by rw [HostEvent.agent, hg])]
      exact stepAnswer_memRead _ hp
    | reset =>
      rw [step_abandon hf hp]
      exact .next _

end answer

theorem stepAnswer_step (s : State) : StepAnswer s (step s) := by
  cases hf : s.inflight with
  | none =>
    cases hp : s.pending with
    | nil => rw [idleUnitHoldsEverything s hp hf]; exact .next s
    | cons e rest => exact stepAnswer_of_idle hf hp
  | some f =>
    cases hp : s.pending with
    | nil => rw [step_of_noEvent hf hp]; exact stepAnswer_runStarted s s
    | cons e rest => exact stepAnswer_of_inflight hf hp

/-- Settles O12: a step's answer is a next state, or one of the two stops with the event that brings it about. -/
theorem onlyTheseStepsStop : Obligations.OnlyTheseStepsStop := by
  refine ⟨fun s r h => ?_, fun s r h => ?_⟩
  · have hanswer := stepAnswer_step s
    rw [h] at hanswer
    cases hanswer with
    | fault hp he =>
      rcases he with ⟨g, a, bs, rfl, hbs, hout⟩ | ⟨g, a, rfl, hout⟩
      · exact ⟨rfl, .inl ⟨g, a, bs, _, hp, hbs, hout⟩⟩
      · exact ⟨rfl, .inr ⟨g, a, _, hp, hout⟩⟩
  · have hanswer := stepAnswer_step s
    rw [h] at hanswer
    cases hanswer with
    | refused hf hp he =>
      rcases he with ⟨g, o, b, v, rfl, ha⟩ | ⟨g, o, b, rfl, ha⟩
      · exact ⟨rfl, hf, .inl ⟨g, o, b, v, _, hp, ha⟩⟩
      · exact ⟨rfl, hf, .inr ⟨g, o, b, _, hp, ha⟩⟩

end Sys2Proof.Machine
end
